-- ==== Sys2Proof/Word.lean ====
section
/-! DEFINITION. The widths of the machine's values (spec 00_scope.md R6, R7; 10_state.md R11, R13, R14).
Every value is unsigned; there is no signed type. -/

namespace Sys2Proof

/-- An 8-bit value: a general register, a timer, a byte of RAM (R11, R16, R19, R20). -/
abbrev Byte := BitVec 8

/-- A 16-bit value: `I`, `PC`, a return address, an instruction word (R13, R14, R15, R46). -/
abbrev Word := BitVec 16

/-- The 12-bit immediate `NNN` (R47). -/
abbrev Addr12 := BitVec 12

/-- The number of a general register, `0..15` (R11). -/
abbrev Reg := Fin 16

/-- The number of a key slot, `0..15` (R21). -/
abbrev Key := Fin 16

/-- `VF` is `V[15]` (R12). -/
abbrev flagReg : Reg := 15

end Sys2Proof
end

