-- ==== Sys2Proof/Syntax.lean ====
section
/-! DEFINITION. The 34 instructions, one constructor per row of spec/opcode_table.json (spec
30_encoding.md R49, R50, R51).  `x` and `y` name registers, `nn` is the immediate byte, `nnn` the 12-bit
immediate, `n` the row count of `DRW`. -/

namespace Sys2Proof

inductive Instr where
  /-- `00E0` CLS (R115) -/
  | cls
  /-- `00EE` RET (R76) -/
  | ret
  /-- `1NNN` JP addr (R77) -/
  | jp (nnn : Addr12)
  /-- `2NNN` CALL addr (R78) -/
  | call (nnn : Addr12)
  /-- `3XNN` SE Vx, byte (R79) -/
  | seByte (x : Reg) (nn : Byte)
  /-- `4XNN` SNE Vx, byte (R80) -/
  | sneByte (x : Reg) (nn : Byte)
  /-- `5XY0` SE Vx, Vy (R81) -/
  | seReg (x y : Reg)
  /-- `6XNN` LD Vx, byte (R90) -/
  | ldByte (x : Reg) (nn : Byte)
  /-- `7XNN` ADD Vx, byte (R91) -/
  | addByte (x : Reg) (nn : Byte)
  /-- `8XY0` LD Vx, Vy (R92) -/
  | ldReg (x y : Reg)
  /-- `8XY1` OR Vx, Vy (R93) -/
  | orReg (x y : Reg)
  /-- `8XY2` AND Vx, Vy (R94) -/
  | andReg (x y : Reg)
  /-- `8XY3` XOR Vx, Vy (R95) -/
  | xorReg (x y : Reg)
  /-- `8XY4` ADD Vx, Vy (R96) -/
  | addReg (x y : Reg)
  /-- `8XY5` SUB Vx, Vy (R97) -/
  | subReg (x y : Reg)
  /-- `8XY6` SHR Vx, Vy (R98) -/
  | shrReg (x y : Reg)
  /-- `8XY7` SUBN Vx, Vy (R99) -/
  | subnReg (x y : Reg)
  /-- `8XYE` SHL Vx, Vy (R100) -/
  | shlReg (x y : Reg)
  /-- `9XY0` SNE Vx, Vy (R82) -/
  | sneReg (x y : Reg)
  /-- `ANNN` LD I, addr (R105) -/
  | ldI (nnn : Addr12)
  /-- `BNNN` JP V0, addr (R83); its `X` is the top nibble of `nnn` -/
  | jpV0 (nnn : Addr12)
  /-- `CXNN` RND Vx, byte (R101) -/
  | rnd (x : Reg) (nn : Byte)
  /-- `DXYN` DRW Vx, Vy, nibble (R116); `n` is a row count, `0..15` -/
  | drw (x y : Reg) (n : Nat)
  /-- `EX9E` SKP Vx (R122) -/
  | skp (x : Reg)
  /-- `EXA1` SKNP Vx (R123) -/
  | sknp (x : Reg)
  /-- `FX07` LD Vx, DT (R125) -/
  | ldVxDT (x : Reg)
  /-- `FX0A` LD Vx, K (R124) -/
  | ldVxK (x : Reg)
  /-- `FX15` LD DT, Vx (R126) -/
  | ldDTVx (x : Reg)
  /-- `FX18` LD ST, Vx (R127) -/
  | ldSTVx (x : Reg)
  /-- `FX1E` ADD I, Vx (R106) -/
  | addI (x : Reg)
  /-- `FX29` LD F, Vx (R107) -/
  | ldF (x : Reg)
  /-- `FX33` LD B, Vx (R108) -/
  | ldB (x : Reg)
  /-- `FX55` LD [I], Vx (R109); `x` is an inclusive upper bound -/
  | storeBlock (x : Reg)
  /-- `FX65` LD Vx, [I] (R110); `x` is an inclusive upper bound -/
  | loadBlock (x : Reg)
deriving DecidableEq, Repr, Inhabited

end Sys2Proof
end

