-- ==== Sys2Proof/WellFormed.lean ====
section
/-! DEFINITION. Which terms of `Instr` are instructions (spec 30_encoding.md R47, R50).  Register numbers,
`NN` and `NNN` cannot be out of range by their types; the row count of `DRW` is a plain number and must
fit the 4-bit field `N`. -/

namespace Sys2Proof

/-- The row count of `DXYN` is `0..15` (R50). -/
def rowCountFits (n : Nat) : Bool := n < 16

/-- Every operand fits its field. -/
def Instr.wellFormed : Instr → Bool
  | .cls           => true
  | .ret           => true
  | .jp _          => true
  | .call _        => true
  | .seByte _ _    => true
  | .sneByte _ _   => true
  | .seReg _ _     => true
  | .ldByte _ _    => true
  | .addByte _ _   => true
  | .ldReg _ _     => true
  | .orReg _ _     => true
  | .andReg _ _    => true
  | .xorReg _ _    => true
  | .addReg _ _    => true
  | .subReg _ _    => true
  | .shrReg _ _    => true
  | .subnReg _ _   => true
  | .shlReg _ _    => true
  | .sneReg _ _    => true
  | .ldI _         => true
  | .jpV0 _        => true
  | .rnd _ _       => true
  | .drw _ _ n     => rowCountFits n
  | .skp _         => true
  | .sknp _        => true
  | .ldVxDT _      => true
  | .ldVxK _       => true
  | .ldDTVx _      => true
  | .ldSTVx _      => true
  | .addI _        => true
  | .ldF _         => true
  | .ldB _         => true
  | .storeBlock _  => true
  | .loadBlock _   => true

end Sys2Proof
end

