-- ==== Sys2Proof/Decode.lean ====
section
/-! DEFINITION. The decoder (total, rejecting by name) and the encoder, both from the opcode map
(spec 30_encoding.md R46, R47, R48, R51, R52). -/

namespace Sys2Proof

/-- Why bytes do not decode. -/
inductive Reject where
  /-- the word matches no row of the opcode map (R52) -/
  | unsupportedOpcode (w : Word)
  /-- fewer than the two bytes of an instruction (R46); the fetch always supplies two -/
  | truncated
deriving DecidableEq, Repr, Inhabited

/-- The six fields of a word (R47).  They overlap: `NN = (Y << 4) | N`, `NNN = (X << 8) | (Y << 4) | N`. -/
structure Fields where
  op  : Fin 16
  x   : Reg
  y   : Reg
  n   : Fin 16
  nn  : Byte
  nnn : Addr12
deriving DecidableEq, Repr

/-- R47, R48: a pure, total view of the word. -/
def fields (w : Word) : Fields where
  op  := (w.extractLsb' 12 4).toFin
  x   := (w.extractLsb' 8 4).toFin
  y   := (w.extractLsb' 4 4).toFin
  n   := (w.extractLsb' 0 4).toFin
  nn  := w.extractLsb' 0 8
  nnn := w.extractLsb' 0 12

/-- Group 0: `00E0` and `00EE` only (R51, R52). -/
def decodeGroup0 (w : Word) (f : Fields) : Except Reject Instr :=
  match f.nnn with
  | 0x0E0 => .ok .cls
  | 0x0EE => .ok .ret
  | _     => .error (.unsupportedOpcode w)

/-- Group 8, selected by `N` (R51, R52). -/
def decodeGroup8 (w : Word) (f : Fields) : Except Reject Instr :=
  match f.n.val with
  | 0x0 => .ok (.ldReg f.x f.y)
  | 0x1 => .ok (.orReg f.x f.y)
  | 0x2 => .ok (.andReg f.x f.y)
  | 0x3 => .ok (.xorReg f.x f.y)
  | 0x4 => .ok (.addReg f.x f.y)
  | 0x5 => .ok (.subReg f.x f.y)
  | 0x6 => .ok (.shrReg f.x f.y)
  | 0x7 => .ok (.subnReg f.x f.y)
  | 0xE => .ok (.shlReg f.x f.y)
  | _   => .error (.unsupportedOpcode w)

/-- Group E, selected by `NN` (R51, R52). -/
def decodeGroupE (w : Word) (f : Fields) : Except Reject Instr :=
  match f.nn with
  | 0x9E => .ok (.skp f.x)
  | 0xA1 => .ok (.sknp f.x)
  | _    => .error (.unsupportedOpcode w)

/-- Group F, selected by `NN` (R51, R52). -/
def decodeGroupF (w : Word) (f : Fields) : Except Reject Instr :=
  match f.nn with
  | 0x07 => .ok (.ldVxDT f.x)
  | 0x0A => .ok (.ldVxK f.x)
  | 0x15 => .ok (.ldDTVx f.x)
  | 0x18 => .ok (.ldSTVx f.x)
  | 0x1E => .ok (.addI f.x)
  | 0x29 => .ok (.ldF f.x)
  | 0x33 => .ok (.ldB f.x)
  | 0x55 => .ok (.storeBlock f.x)
  | 0x65 => .ok (.loadBlock f.x)
  | _    => .error (.unsupportedOpcode w)

/-- An `XY` row whose `N` must be 0: `5XY0` and `9XY0` (R51, R52). -/
def decodeXY0 (w : Word) (f : Fields) (i : Instr) : Except Reject Instr :=
  if f.n = 0 then .ok i else .error (.unsupportedOpcode w)

/-- R51: dispatch on the group, then on the fixed nibbles of the row, every one of them tested. -/
def decode (w : Word) : Except Reject Instr :=
  let f := fields w
  match f.op.val with
  | 0x0 => decodeGroup0 w f
  | 0x1 => .ok (.jp f.nnn)
  | 0x2 => .ok (.call f.nnn)
  | 0x3 => .ok (.seByte f.x f.nn)
  | 0x4 => .ok (.sneByte f.x f.nn)
  | 0x5 => decodeXY0 w f (.seReg f.x f.y)
  | 0x6 => .ok (.ldByte f.x f.nn)
  | 0x7 => .ok (.addByte f.x f.nn)
  | 0x8 => decodeGroup8 w f
  | 0x9 => decodeXY0 w f (.sneReg f.x f.y)
  | 0xA => .ok (.ldI f.nnn)
  | 0xB => .ok (.jpV0 f.nnn)
  | 0xC => .ok (.rnd f.x f.nn)
  | 0xD => .ok (.drw f.x f.y f.n.val)
  | 0xE => decodeGroupE w f
  | 0xF => decodeGroupF w f
  | _   => .error (.unsupportedOpcode w)

/-- R46: the instruction at the head of a list of bytes, high byte first, and the bytes after it. -/
def decodeBytes : List Byte → Except Reject (Instr × List Byte)
  | hi :: lo :: rest => (decode (hi ++ lo)).map (·, rest)
  | [_]              => .error .truncated
  | []               => .error .truncated

/-! ### The encoder, from the formats of R49 -/

/-- The 4 bits of a register field. -/
def regBits (x : Reg) : BitVec 4 := BitVec.ofNat 4 x.val

/-- Format `NNN`. -/
def packNNN (op : BitVec 4) (nnn : Addr12) : Word := op ++ nnn

/-- Format `XNN`, and format `X` with its sub-opcode in `NN`. -/
def packXNN (op : BitVec 4) (x : Reg) (nn : Byte) : Word := op ++ regBits x ++ nn

/-- Format `XYN`, and format `XY` with its sub-opcode in `N`. -/
def packXYN (op : BitVec 4) (x y : Reg) (n : BitVec 4) : Word :=
  op ++ regBits x ++ regBits y ++ n

/-- The word of an instruction (R51, column `pattern`). -/
def encode : Instr → Word
  | .cls            => 0x00E0
  | .ret            => 0x00EE
  | .jp nnn         => packNNN 0x1 nnn
  | .call nnn       => packNNN 0x2 nnn
  | .seByte x nn    => packXNN 0x3 x nn
  | .sneByte x nn   => packXNN 0x4 x nn
  | .seReg x y      => packXYN 0x5 x y 0x0
  | .ldByte x nn    => packXNN 0x6 x nn
  | .addByte x nn   => packXNN 0x7 x nn
  | .ldReg x y      => packXYN 0x8 x y 0x0
  | .orReg x y      => packXYN 0x8 x y 0x1
  | .andReg x y     => packXYN 0x8 x y 0x2
  | .xorReg x y     => packXYN 0x8 x y 0x3
  | .addReg x y     => packXYN 0x8 x y 0x4
  | .subReg x y     => packXYN 0x8 x y 0x5
  | .shrReg x y     => packXYN 0x8 x y 0x6
  | .subnReg x y    => packXYN 0x8 x y 0x7
  | .shlReg x y     => packXYN 0x8 x y 0xE
  | .sneReg x y     => packXYN 0x9 x y 0x0
  | .ldI nnn        => packNNN 0xA nnn
  | .jpV0 nnn       => packNNN 0xB nnn
  | .rnd x nn       => packXNN 0xC x nn
  | .drw x y n      => packXYN 0xD x y (BitVec.ofNat 4 n)
  | .skp x          => packXNN 0xE x 0x9E
  | .sknp x         => packXNN 0xE x 0xA1
  | .ldVxDT x       => packXNN 0xF x 0x07
  | .ldVxK x        => packXNN 0xF x 0x0A
  | .ldDTVx x       => packXNN 0xF x 0x15
  | .ldSTVx x       => packXNN 0xF x 0x18
  | .addI x         => packXNN 0xF x 0x1E
  | .ldF x          => packXNN 0xF x 0x29
  | .ldB x          => packXNN 0xF x 0x33
  | .storeBlock x   => packXNN 0xF x 0x55
  | .loadBlock x    => packXNN 0xF x 0x65

/-- The two bytes of an instruction in RAM, high byte first (R46). -/
def encodeBytes (i : Instr) : List Byte :=
  [(encode i).extractLsb' 8 8, (encode i).extractLsb' 0 8]

/-- The word that the opcode table's bits `w` stand for: the table numbers the bits of one 16-bit word, bit
0 the least significant, and every bit above `nbits` is 0. -/
def tableWord (nbits w : Nat) : Word := BitVec.ofNat 16 (w % 2 ^ nbits)

/-- What the decoder reads from an instruction whose bits are `w`, laid out in RAM as R46 says. -/
def decodeTableWord (nbits w : Nat) : Option Instr :=
  match decodeBytes [(tableWord nbits w).extractLsb' 8 8, (tableWord nbits w).extractLsb' 0 8] with
  | .ok (i, _) => some i
  | .error _   => none

end Sys2Proof
end

