-- ==== Sys2Proof/Config.lean ====
section
/-! DEFINITION. What is fixed between two `Load`s, what the host hands to `Load`, and the free values
(spec 00_scope.md R4, R5; 10_state.md R22, R23, R25; 70_reset_and_hazards.md R154). -/

namespace Sys2Proof.Config

/-- The 80 font bytes as the font supplier lays them out: 16 glyphs in digit order, 5 bytes a glyph, the
top row first (R154). -/
abbrev FontTable := Vector (Vector Byte 5) 16

/-- The selector of a supported glyph set (R4 `FONT_VARIANT`, R154).  The spec defines one variant,
`standard`, and lets another be supplied as its table `FONT_DATA`. -/
inductive FontVariant where
  | standard
  | supplied (fontData : FontTable)
deriving DecidableEq, Repr, Inhabited

/-- The configuration snapshot that a successful `Load` latches, one field per row of the table of R4.
Numbers are plain `Nat`: no rule wraps or masks them. -/
structure Cfg where
  memSize        : Nat
  programOffset  : Nat
  fontOffset     : Nat
  stackDepth     : Nat
  displayWidth   : Nat
  displayHeight  : Nat
  /-- instructions per second; a real of the spec, held as a rational (log entry 7) -/
  targetFreqInit : Rat
  fontVariant    : FontVariant
  /-- 8XY6 and 8XYE shift `VY` -/
  shiftUsesVY    : Bool
  /-- BNNN adds `VX` -/
  jumpUsesVX     : Bool
  /-- FX55 and FX65 advance `I` -/
  memIncrementsI : Bool
  /-- FX1E reports overflow in `VF` -/
  addiOverflowVF : Bool
deriving DecidableEq, Repr, Inhabited

/-- The usual configuration of R4 and of 95_test_vectors.md.  The four toggles and the frequency are
OPEN in the spec: false and 600 are the values its test vectors use (DESIGN CHOICE, log entry 2). -/
def Cfg.usual : Cfg where
  memSize        := 4096
  programOffset  := 0x200
  fontOffset     := 0x050
  stackDepth     := 16
  displayWidth   := 64
  displayHeight  := 32
  targetFreqInit := 600
  fontVariant    := .standard
  shiftUsesVY    := false
  jumpUsesVX     := false
  memIncrementsI := false
  addiOverflowVF := false

/-- A number the host hands over in a floating-point type (R5 (e), R66): a finite one, or a NaN or an
infinity. -/
inductive HostReal where
  | finite (q : Rat)
  | nonFinite
deriving DecidableEq, Repr, Inhabited

/-- A configuration as the host hands it to `Load`, before the checks of R153: the numbers may be out of
range and the font selector may be outside the supported set (`none`). -/
structure RawCfg where
  memSize        : Int
  programOffset  : Int
  fontOffset     : Int
  stackDepth     : Int
  displayWidth   : Int
  displayHeight  : Int
  targetFreqInit : HostReal
  fontVariant    : Option FontVariant
  shiftUsesVY    : Bool
  jumpUsesVX     : Bool
  memIncrementsI : Bool
  addiOverflowVF : Bool
deriving DecidableEq, Repr, Inhabited

/-- FREE VALUE.  The random byte of R25: the `n`-th draw.  No body: nothing can be proved of it, so a
claim holds whatever bytes arrive (log entry 3). -/
opaque rndByte : Nat → Byte

end Sys2Proof.Config
end

