-- ==== Sys2Proof/Machine/State.lean ====
section
/-! DEFINITION. The state of the core, the reasons a step can stop, and the state after reset
(spec 10_state.md R10 to R28, 60_exceptions.md R131, R137, 70_reset_and_hazards.md R153). -/

namespace Sys2Proof.Machine

open Sys2Proof.Config

/-- `ENGINE_STATE` (R24, R61). -/
inductive EngineState where
  /-- before the first `Load` -/
  | unloaded
  | ready
  /-- a fault was raised; left only by a successful `Load` -/
  | faulted
deriving DecidableEq, Repr, Inhabited

/-- Which of the two regions did not fit (R135). -/
inductive Region where
  | font
  | program
deriving DecidableEq, Repr, Inhabited

/-- The offending configuration field (R136, R153). -/
inductive CfgField where
  | memSize
  | programOffset
  | fontOffset
  | stackDepth
  | displayWidth
  | displayHeight
  | targetFreqInit
  | fontVariant
deriving DecidableEq, Repr, Inhabited

/-- The five faults of R131 with the context each records.  These are the values of the `FAULT` record:
the operation that raises one ends in a NEXT state that holds it, with the engine `faulted` (R137; log
entry 4), and every later `Step` is refused.  No operation answers `Outcome.fault`. -/
inductive Fault where
  /-- Code 1, raised by `Step`: the word `word`, fetched at `addr`, matches no row (R132).  Safe: the core
  itself stops here. -/
  | unsupportedOpcode (word addr : Word)
  /-- Code 2, raised by `2NNN` at `addr` with the stack at capacity (R133).  Safe: the core itself stops
  here. -/
  | stackOverflow (addr word : Word)
  /-- Code 3, raised by `00EE` at `addr` with the stack empty (R134).  Safe: the core itself stops here. -/
  | stackUnderflow (addr word : Word)
  /-- Code 4, raised by `Load`: the region does not fit (R135).  Safe: nothing runs. -/
  | outOfMemory (region : Region) (offset : Int) (length : Nat) (memSize : Int)
  /-- Code 5, raised by `Load`: the field is not valid (R136).  Safe: nothing runs. -/
  | invalidConfiguration (field : CfgField)
deriving DecidableEq, Repr, Inhabited

/-- Why an operation is refused. -/
inductive Refusal where
  /-- No instruction of this model answers it: every arm of `exec` has its meaning. Safe. -/
  | notModelled (mnemonic : String)
  /-- `Step` or `Update` before the first `Load`, answered by `step` and `update` (R69).  Safe: the
  operation does nothing. -/
  | engineUnloaded
  /-- `Step` or `Update` after a fault, answered by `step` and `update` (R69).  Safe: the operation does
  nothing. -/
  | engineFaulted
  /-- `Update` with a NaN or an infinity (R66: "a model refuses it").  Safe: outside the specification. -/
  | nonFiniteElapsedTime
  /-- `SetKey` or a host read before any `Load` has succeeded (R70, R73).  Safe: not legal. -/
  | notLoaded
  /-- `SetTargetFreq` when the engine is not `Ready` (R73).  Safe: not legal. -/
  | targetFreqNotReady
  /-- `SetTargetFreq` with a number that is not finite and `>= 0` (R73).  Safe: not legal. -/
  | targetFreqValue
  /-- `ReadPixel` outside the framebuffer, a register number or address that does not exist (R71, R73).
  Safe: not legal. -/
  | noSuchItem
deriving DecidableEq, Repr, Inhabited

/-- `MEM`: the cells that differ from what `Load` itself puts there (R16, R26), addresses strictly rising
(`Memory.wf`, Machine/Ops.lean). -/
abbrev Memory := List Host.Cell

/-- `FB`: the cells of the lit pixels, pixel `(x, y)` under the key `y * DISPLAY_WIDTH + x`, keys strictly
rising (R17; log entry 8). -/
abbrev FrameBuffer := List (Nat × Bool)

/-- The fourteen items of R10, then two fields of the model's own (`loaded`, `draws`). -/
structure State where
  /-- `V[0..15]` (R11); `VF` is `V[15]` (R12) -/
  v          : Vector Byte 16
  /-- `I` (R13) -/
  i          : Word
  /-- `PC` (R14) -/
  pc         : Word
  /-- `STACK`, the most recently pushed return address first (R15) -/
  stack      : List Word
  /-- `MEM` (R16) -/
  mem        : Memory
  /-- `FB` (R17) -/
  fb         : FrameBuffer
  /-- `DIRTY` (R18) -/
  dirty      : Bool
  /-- `DT` (R19) -/
  dt         : Byte
  /-- `ST` (R20) -/
  st         : Byte
  /-- `KEYS[0..15]`, true = pressed (R21) -/
  keys       : Vector Bool 16
  /-- `CFG` (R22) -/
  cfg        : Cfg
  /-- `TARGET_FREQ` (R23) -/
  targetFreq : Rat
  /-- `ENGINE_STATE` (R24) -/
  engine     : EngineState
  /-- `FAULT` (R24), meaningful only in `faulted` -/
  fault      : Option Fault
  /-- THE MODEL'S OWN: whether some `Load` has succeeded, which decides whether `SetKey` and the host reads
  are legal (R70, R73; log entry 9) -/
  loaded     : Bool
  /-- THE MODEL'S OWN: how many free values were drawn so far (R25; log entry 3) -/
  draws      : Nat
deriving DecidableEq, Repr, Inhabited

/-- The state after a successful `Load` of `cfg` with an empty program (R26): the cells that `Load` fills
with zeros and font bytes read so unlisted. -/
def State.afterLoad (cfg : Cfg) (draws : Nat) : State where
  v          := Vector.replicate 16 0
  i          := 0
  pc         := BitVec.ofNat 16 cfg.programOffset
  stack      := []
  mem        := []
  fb         := []
  dirty      := false
  dt         := 0
  st         := 0
  keys       := Vector.replicate 16 false
  cfg        := cfg
  targetFreq := cfg.targetFreqInit
  engine     := .ready
  fault      := none
  loaded     := true
  draws      := draws

/-- The machine right after its one reset, a successful `Load` (R26, R151), of the usual configuration and
no program (log entries 2 and 11). -/
def State.reset : State := State.afterLoad Cfg.usual 0

end Sys2Proof.Machine

namespace Sys2Proof.Config

/-- FREE VALUE.  Everything the spec leaves unspecified before the first `Load` and after a failed one
(R27).  No body: nothing can be proved of any field (log entry 5). -/
opaque unspecifiedState : Nat → Machine.State

end Sys2Proof.Config

namespace Sys2Proof.Machine

/-- Before the first `Load`: `Unloaded`, everything else unspecified (R24, R27). -/
def State.beforeLoad : State :=
  { Config.unspecifiedState 0 with engine := .unloaded, loaded := false, draws := 1 }

end Sys2Proof.Machine
end

