-- ==== Sys2Proof/Machine/Font.lean ====
section
/-! DEFINITION. The font supplier (spec 70_reset_and_hazards.md R154) and what RAM holds right after a
`Load`, under the program (10_state.md R26, 20_memory.md R37). -/

namespace Sys2Proof.Machine

open Sys2Proof.Config

/-- The glyphs of variant `standard` (R154). -/
def standardFont : FontTable :=
  #v[#v[0xF0, 0x90, 0x90, 0x90, 0xF0],   -- 0
     #v[0x20, 0x60, 0x20, 0x20, 0x70],   -- 1
     #v[0xF0, 0x10, 0xF0, 0x80, 0xF0],   -- 2
     #v[0xF0, 0x10, 0xF0, 0x10, 0xF0],   -- 3
     #v[0x90, 0x90, 0xF0, 0x10, 0x10],   -- 4
     #v[0xF0, 0x80, 0xF0, 0x10, 0xF0],   -- 5
     #v[0xF0, 0x80, 0xF0, 0x90, 0xF0],   -- 6
     #v[0xF0, 0x10, 0x20, 0x40, 0x40],   -- 7
     #v[0xF0, 0x90, 0xF0, 0x90, 0xF0],   -- 8
     #v[0xF0, 0x90, 0xF0, 0x10, 0xF0],   -- 9
     #v[0xF0, 0x90, 0xF0, 0x90, 0x90],   -- A
     #v[0xE0, 0x90, 0xE0, 0x90, 0xE0],   -- B
     #v[0xF0, 0x80, 0x80, 0x80, 0xF0],   -- C
     #v[0xE0, 0x90, 0x90, 0x90, 0xE0],   -- D
     #v[0xF0, 0x80, 0xF0, 0x80, 0xF0],   -- E
     #v[0xF0, 0x80, 0xF0, 0x80, 0x80]]   -- F

/-- How many bytes `FONT(v)` has: 16 glyphs of 5 (R154). -/
def fontLength : Nat := 80

/-- `FONT(v)` as its 16 glyphs (R154). -/
def fontTable : FontVariant → FontTable
  | .standard      => standardFont
  | .supplied data => data

/-- `FONT(v)[k]`: byte `k mod 5` of glyph `k / 5` (R154).  There is no byte past the 80th. -/
def fontByte (v : FontVariant) (k : Nat) : Byte :=
  if h : k < 80 then (fontTable v)[k / 5][k % 5] else 0

/-- What cell `a` holds after a `Load` of no program: the font byte inside the font region, else 0
(R26, R37).  This is what an address that the memory does not list reads as (log entry 1). -/
def resetByte (c : Cfg) (a : Nat) : Byte :=
  if c.fontOffset ≤ a ∧ a < c.fontOffset + fontLength then fontByte c.fontVariant (a - c.fontOffset) else 0

end Sys2Proof.Machine
end

