-- ==== Sys2Proof/Machine/Ops.lean ====
section
/-! DEFINITION. The named operations over registers, memory, framebuffer and stack, and fault entry (spec
10_state.md, 20_memory.md, 44_display.md R117, 60_exceptions.md R137).  Everything the instructions do goes
through these. -/

namespace Sys2Proof.Machine

open Sys2Proof.Config

/-! ### Sparse cells: a list of (key, value) pairs over a default -/

/-- The value under key `k`; an unlisted key reads as `d k`. -/
def Cells.get {α : Type} (d : Nat → α) : List (Nat × α) → Nat → α
  | [], k          => d k
  | (a, b) :: m, k => if k = a then b else Cells.get d m k

/-- The cells without key `k`. -/
def Cells.erase {α : Type} (k : Nat) : List (Nat × α) → List (Nat × α)
  | []          => []
  | (a, b) :: m => if k = a then Cells.erase k m else (a, b) :: Cells.erase k m

/-- The cells with `b` under key `k`, put in its place in the rising order. -/
def Cells.insert {α : Type} (k : Nat) (b : α) : List (Nat × α) → List (Nat × α)
  | []           => [(k, b)]
  | (a, b') :: m =>
    if k < a then (k, b) :: (a, b') :: m
    else if k = a then (k, b) :: m
    else (a, b') :: Cells.insert k b m

/-- Write: the value an unlisted key reads as is never listed. -/
def Cells.set {α : Type} [DecidableEq α] (d : Nat → α) (m : List (Nat × α)) (k : Nat) (b : α) :
    List (Nat × α) :=
  if b = d k then Cells.erase k m else Cells.insert k b m

/-- The canonical form: keys strictly rising from `lo` and below `bound`, no entry equal to its
default. -/
def Cells.canonical {α : Type} [DecidableEq α] (d : Nat → α) (bound : Nat) : Nat → List (Nat × α) → Bool
  | _, []           => true
  | lo, (a, b) :: m =>
    decide (lo ≤ a) && decide (a < bound) && decide (b ≠ d a) && Cells.canonical d bound (a + 1) m

/-! ### RAM -/

/-- The canonical form of `MEM` under a configuration. -/
def Memory.wf (c : Cfg) (m : Memory) : Bool := Cells.canonical (resetByte c) c.memSize 0 m

/-- R31: the effective address of a request for `a`. -/
def effectiveAddr (c : Cfg) (a : Nat) : Nat := a % c.memSize

/-- R32 `MemRead(a, 1)`. -/
def State.memRead (s : State) (a : Nat) : Byte :=
  Cells.get (resetByte s.cfg) s.mem (effectiveAddr s.cfg a)

/-- R32 `MemWrite(a, 1, b)`. -/
def State.memWrite (s : State) (a : Nat) (b : Byte) : State :=
  { s with mem := Cells.set (resetByte s.cfg) s.mem (effectiveAddr s.cfg a) b }

/-- One-byte writes at `a`, `a + 1`, … in that order, each wrapped on its own (R32, R111). -/
def State.memWriteAll (s : State) (a : Nat) : List Byte → State
  | []      => s
  | b :: bs => (s.memWrite a b).memWriteAll (a + 1) bs

/-- R33 `Fetch16(a)`: the byte at `a` is the high byte. -/
def State.fetch16 (s : State) (a : Nat) : Word := s.memRead a ++ s.memRead (a + 1)

/-! ### Registers -/

/-- R11 `V[x]`. -/
def State.readV (s : State) (x : Reg) : Byte := s.v[x]

/-- R11 `V[x] <- b`. -/
def State.writeV (s : State) (x : Reg) (b : Byte) : State := { s with v := s.v.set x b }

/-- R12 `VF <- b`. -/
def State.writeVF (s : State) (b : Byte) : State := s.writeV flagReg b

/-- R13 `I <- a`. -/
def State.setI (s : State) (a : Word) : State := { s with i := a }

/-- R14 `PC <- a`. -/
def State.setPC (s : State) (a : Word) : State := { s with pc := a }

/-- R19 `DT <- b`. -/
def State.setDT (s : State) (b : Byte) : State := { s with dt := b }

/-- R20 `ST <- b`. -/
def State.setST (s : State) (b : Byte) : State := { s with st := b }

/-- R18 `DIRTY <- b`. -/
def State.setDirty (s : State) (b : Bool) : State := { s with dirty := b }

/-- R70 `KEYS[k] <- b`. -/
def State.setKeySlot (s : State) (k : Key) (b : Bool) : State := { s with keys := s.keys.set k b }

/-- R21 `KEYS[k]`: the snapshot of R63 is the state's own key slots, which no part of a `Step` writes. -/
def State.readKey (s : State) (k : Key) : Bool := s.keys[k]

/-- R62 `PC <- (PC + 2) mod 65536`: the advance of the fetch and, again, of a taken skip (R84). -/
def State.advancePC (s : State) : State := s.setPC (s.pc + 2)

/-- R124 `PC <- (PC - 2) mod 65536`. -/
def State.rewindPC (s : State) : State := s.setPC (s.pc - 2)

/-- The address the executing instruction was fetched from: `PC` holds `a + 2` while it executes (R14,
R62; log entry 10). -/
def State.instrAddr (s : State) : Word := s.pc - 2

/-- R25: takes the draw of this step; the next one is another. -/
def State.nextDraw (s : State) : State := { s with draws := s.draws + 1 }

/-- R25 `rnd`. -/
def State.drawnByte (s : State) : Byte := rndByte s.draws

/-! ### Address stack -/

/-- R15 `Push(v)`; `none` at capacity. -/
def State.push (s : State) (a : Word) : Option State :=
  if s.stack.length < s.cfg.stackDepth then some { s with stack := a :: s.stack } else none

/-- R15 `Pop()`: the entry and the state without it; `none` when empty. -/
def State.pop (s : State) : Option (Word × State) :=
  match s.stack with
  | []     => none
  | a :: r => some (a, { s with stack := r })

/-! ### Framebuffer -/

/-- An unlisted pixel is 0. -/
def blankPixel (_ : Nat) : Bool := false

/-- The key of pixel `(x, y)` (log entry 8). -/
def pixelKey (c : Cfg) (x y : Nat) : Nat := y * c.displayWidth + x

/-- The canonical form of `FB` under a configuration. -/
def FrameBuffer.wf (c : Cfg) (m : FrameBuffer) : Bool :=
  Cells.canonical blankPixel (c.displayWidth * c.displayHeight) 0 m

/-- R117 `PixRead(x, y)`. -/
def State.pixRead (s : State) (x y : Nat) : Bool := Cells.get blankPixel s.fb (pixelKey s.cfg x y)

/-- R117 `PixWrite(x, y, b)`: sets `DIRTY` whatever `b` is. -/
def State.pixWrite (s : State) (x y : Nat) (b : Bool) : State :=
  { s with fb := Cells.set blankPixel s.fb (pixelKey s.cfg x y) b, dirty := true }

/-- R115: every pixel 0; `DIRTY` ends as 1. -/
def State.clearDisplay (s : State) : State := { s with fb := [], dirty := true }

/-! ### Fetch and faults -/

/-- The word that `Step` fetches (R62). -/
def State.fetchWord (s : State) : Word := s.fetch16 s.pc.toNat

/-- The instruction of that word, or why there is none (R62). -/
def State.fetchInstr (s : State) : Except Reject Instr := decode s.fetchWord

/-- R131: the code of a fault. -/
def Fault.code : Fault → Nat
  | .unsupportedOpcode _ _    => 1
  | .stackOverflow _ _        => 2
  | .stackUnderflow _ _       => 3
  | .outOfMemory _ _ _ _      => 4
  | .invalidConfiguration _   => 5

/-- R137, the state after `raise f`: the record is written, the engine is `Faulted`, nothing else
changes. -/
def State.enterFault (s : State) (f : Fault) : State := { s with engine := .faulted, fault := some f }

/-- R137 `raise f`: control goes nowhere inside the core and the operation ends.  There is no return from a
fault (R138); only a `Load` leaves it (Machine/Load.lean). -/
def raise (f : Fault) (s : State) : Host.Outcome State Fault Refusal := .next (s.enterFault f)

/-- R132: the fetched word matches no row.  `s` is the state after the fetch and the advance of `PC`. -/
def raiseUnsupported (w : Word) (s : State) : Host.Outcome State Fault Refusal :=
  raise (.unsupportedOpcode w s.instrAddr) s

/-- R24, R69: why the engine does not act, if it does not. -/
def State.notReady (s : State) : Option Refusal :=
  match s.engine with
  | .ready    => none
  | .unloaded => some .engineUnloaded
  | .faulted  => some .engineFaulted

end Sys2Proof.Machine
end

