-- ==== Sys2Proof/Machine/Operands.lean ====
section
/-! DEFINITION. The operand forms (spec 30_encoding.md R50, 41_control_flow.md R83, R84, 42_alu.md R98,
43_index_memory.md R107, R111, 45_keys_timers.md R122). -/

namespace Sys2Proof.Machine

open Sys2Proof.Config

/-- R50 `zext_16(NNN)`. -/
def zext12 (nnn : Addr12) : Word := nnn.setWidth 16

/-- `zext_16` of a register's value (R83, R106). -/
def zext8 (b : Byte) : Word := b.setWidth 16

/-- `v & 0x0F` as a number `0..15`: a key (R122) or a digit (R107). -/
def lowNibble (b : Byte) : Fin 16 := (b.extractLsb' 0 4).toFin

/-- R98, R100: the value that `8XY6` and `8XYE` shift. -/
def State.shiftSource (s : State) (x y : Reg) : Byte :=
  if s.cfg.shiftUsesVY then s.readV y else s.readV x

/-- R83: the register that `BNNN` adds; `X` is the top nibble of `NNN`. -/
def offsetReg (c : Cfg) (nnn : Addr12) : Reg :=
  if c.jumpUsesVX then (nnn.extractLsb' 8 4).toFin else 0

/-- R83: the target of `BNNN`, modulo 65536. -/
def State.offsetTarget (s : State) (nnn : Addr12) : Word :=
  zext8 (s.readV (offsetReg s.cfg nnn)) + zext12 nnn

/-- R111: the address of element `k`, an unbounded sum that the access reduces. -/
def State.elementAddr (s : State) (k : Nat) : Nat := s.i.toNat + k

/-- R107: 5 bytes per glyph, in digit order. -/
def glyphAddr (c : Cfg) (digit : Fin 16) : Word := BitVec.ofNat 16 (c.fontOffset + 5 * digit.val)

/-- R84: a skip that is taken advances `PC` by a further 2. -/
def State.skipIf (s : State) (taken : Bool) : State := if taken then s.advancePC else s

/-- R109, R110: `I` after a block transfer of `count` registers. -/
def State.advanceI (s : State) (count : Nat) : State :=
  if s.cfg.memIncrementsI then s.setI (s.i + BitVec.ofNat 16 count) else s

/-- R109: `V0 .. VX`. -/
def State.firstRegs (s : State) (count : Nat) : List Byte := s.v.toList.take count

/-- R108: hundreds, tens, units. -/
def bcdDigits (b : Byte) : List Byte :=
  [BitVec.ofNat 8 (b.toNat / 100), BitVec.ofNat 8 (b.toNat / 10 % 10), BitVec.ofNat 8 (b.toNat % 10)]

/-- R124: the least pressed key at or after `from`, scanning upwards; `fuel` slots are left to scan. -/
def State.scanKeys (s : State) (start : Nat) : Nat → Option Key
  | 0        => none
  | fuel + 1 => if s.readKey (Fin.ofNat 16 start) then some (Fin.ofNat 16 start) else s.scanKeys (start + 1) fuel

/-- R124: the first pressed key in the scan order 0, 1, .., 15. -/
def State.firstKey (s : State) : Option Key := s.scanKeys 0 16

end Sys2Proof.Machine
end

