-- ==== Sys2Proof/Machine/Flags.lean ====
section
/-! DEFINITION. Results and flags of the arithmetic, shift and index instructions (spec 42_alu.md R96 to
R100, R102, R103, 43_index_memory.md R106): exact in `Nat`, then narrowed. -/

namespace Sys2Proof.Machine

/-- A flag is written as 0 or 1 (R12). -/
def flagByte (b : Bool) : Byte := if b then 1 else 0

/-- R96: the sum modulo 256. -/
def addResult (a b : Byte) : Byte := BitVec.ofNat 8 (a.toNat + b.toNat)

/-- R96: the 8-bit sum exceeds 255. -/
def addCarry (a b : Byte) : Bool := 255 < a.toNat + b.toNat

/-- R97, R99: minuend minus subtrahend, modulo 256. -/
def subResult (a b : Byte) : Byte := BitVec.ofNat 8 (256 + a.toNat - b.toNat)

/-- R97, R99: the subtraction does not underflow. -/
def subNoBorrow (a b : Byte) : Bool := b.toNat ≤ a.toNat

/-- R98: `t >> 1`. -/
def shrResult (t : Byte) : Byte := t >>> 1

/-- R98: the bit shifted out, the least significant. -/
def shrOut (t : Byte) : Bool := t.getLsbD 0

/-- R100: `(t << 1) mod 256`. -/
def shlResult (t : Byte) : Byte := t <<< 1

/-- R100: the bit shifted out, the most significant. -/
def shlOut (t : Byte) : Bool := t.getLsbD 7

/-- R106: `I + V[X]` is no valid RAM address. -/
def indexOverflow (memSize : Nat) (i : Word) (b : Byte) : Bool := memSize ≤ i.toNat + b.toNat

/-- R102: the result is written first, then the flag, so that with `X = 15` the flag wins. -/
def State.writeResultFlag (s : State) (x : Reg) (result : Byte) (flag : Bool) : State :=
  (s.writeV x result).writeVF (flagByte flag)

end Sys2Proof.Machine
end

