-- ==== Sys2Proof/Machine/Alu.lean ====
section
/-! DEFINITION. Register loads, arithmetic, logic, shifts, random (spec 42_alu.md R90 to R103). -/

namespace Sys2Proof.Machine

/-- R90 `6XNN`. -/
def execLdByte (x : Reg) (nn : Byte) (s : State) : Host.Outcome State Fault Refusal :=
  .next (s.writeV x nn)

/-- R91 `7XNN`: wraps, no carry recorded. -/
def execAddByte (x : Reg) (nn : Byte) (s : State) : Host.Outcome State Fault Refusal :=
  .next (s.writeV x (addResult (s.readV x) nn))

/-- R92 `8XY0`. -/
def execLdReg (x y : Reg) (s : State) : Host.Outcome State Fault Refusal :=
  .next (s.writeV x (s.readV y))

/-- R93 `8XY1`: `VF` is left unchanged. -/
def execOrReg (x y : Reg) (s : State) : Host.Outcome State Fault Refusal :=
  .next (s.writeV x (s.readV x ||| s.readV y))

/-- R94 `8XY2`. -/
def execAndReg (x y : Reg) (s : State) : Host.Outcome State Fault Refusal :=
  .next (s.writeV x (s.readV x &&& s.readV y))

/-- R95 `8XY3`. -/
def execXorReg (x y : Reg) (s : State) : Host.Outcome State Fault Refusal :=
  .next (s.writeV x (s.readV x ^^^ s.readV y))

/-- R96 `8XY4`. -/
def execAddReg (x y : Reg) (s : State) : Host.Outcome State Fault Refusal :=
  .next (s.writeResultFlag x (addResult (s.readV x) (s.readV y)) (addCarry (s.readV x) (s.readV y)))

/-- R97 `8XY5`: minuend `VX`. -/
def execSubReg (x y : Reg) (s : State) : Host.Outcome State Fault Refusal :=
  .next (s.writeResultFlag x (subResult (s.readV x) (s.readV y)) (subNoBorrow (s.readV x) (s.readV y)))

/-- R98 `8XY6`. -/
def execShrReg (x y : Reg) (s : State) : Host.Outcome State Fault Refusal :=
  .next (s.writeResultFlag x (shrResult (s.shiftSource x y)) (shrOut (s.shiftSource x y)))

/-- R99 `8XY7`: minuend `VY`. -/
def execSubnReg (x y : Reg) (s : State) : Host.Outcome State Fault Refusal :=
  .next (s.writeResultFlag x (subResult (s.readV y) (s.readV x)) (subNoBorrow (s.readV y) (s.readV x)))

/-- R100 `8XYE`. -/
def execShlReg (x y : Reg) (s : State) : Host.Outcome State Fault Refusal :=
  .next (s.writeResultFlag x (shlResult (s.shiftSource x y)) (shlOut (s.shiftSource x y)))

/-- R101 `CXNN`: one fresh draw (R25), masked. -/
def execRnd (x : Reg) (nn : Byte) (s : State) : Host.Outcome State Fault Refusal :=
  .next (s.nextDraw.writeV x (s.drawnByte &&& nn))

end Sys2Proof.Machine
end

