-- ==== Sys2Proof/Machine/ControlFlow.lean ====
section
/-! DEFINITION. Return, jump, call, skips, jump with offset (spec 41_control_flow.md R76 to R85).  `PC`
already holds the address of the next sequential instruction (40_engine_cycle.md R62). -/

namespace Sys2Proof.Machine

/-- R76 `00EE`; on an empty stack R134. -/
def execRet (s : State) : Host.Outcome State Fault Refusal :=
  match s.pop with
  | some (a, s') => .next (s'.setPC a)
  | none         => raise (.stackUnderflow s.instrAddr (encode .ret)) s

/-- R77 `1NNN`. -/
def execJp (nnn : Addr12) (s : State) : Host.Outcome State Fault Refusal :=
  .next (s.setPC (zext12 nnn))

/-- R78 `2NNN`: pushes the advanced `PC`; at capacity R133. -/
def execCall (nnn : Addr12) (s : State) : Host.Outcome State Fault Refusal :=
  match s.push s.pc with
  | some s' => .next (s'.setPC (zext12 nnn))
  | none    => raise (.stackOverflow s.instrAddr (encode (.call nnn))) s

/-- R79 `3XNN`. -/
def execSeByte (x : Reg) (nn : Byte) (s : State) : Host.Outcome State Fault Refusal :=
  .next (s.skipIf (s.readV x == nn))

/-- R80 `4XNN`. -/
def execSneByte (x : Reg) (nn : Byte) (s : State) : Host.Outcome State Fault Refusal :=
  .next (s.skipIf (s.readV x != nn))

/-- R81 `5XY0`. -/
def execSeReg (x y : Reg) (s : State) : Host.Outcome State Fault Refusal :=
  .next (s.skipIf (s.readV x == s.readV y))

/-- R82 `9XY0`. -/
def execSneReg (x y : Reg) (s : State) : Host.Outcome State Fault Refusal :=
  .next (s.skipIf (s.readV x != s.readV y))

/-- R83 `BNNN`. -/
def execJpV0 (nnn : Addr12) (s : State) : Host.Outcome State Fault Refusal :=
  .next (s.setPC (s.offsetTarget nnn))

end Sys2Proof.Machine
end

