-- ==== Sys2Proof/Machine/Display.lean ====
section
/-! DEFINITION. Display instructions (spec 44_display.md R115 to R118). -/

namespace Sys2Proof.Machine

/-- R115 `00E0`. -/
def execCls (s : State) : Host.Outcome State Fault Refusal :=
  .next s.clearDisplay

/-- R116, the innermost three lines: `VF <- 1` if the pixel was set, then the pixel is toggled. -/
def State.togglePixel (s : State) (px py : Nat) : State :=
  if s.pixRead px py then (s.writeVF 1).pixWrite px py false else s.pixWrite px py true

/-- R116: bit `7 - c` of a sprite row, `c = 0` the leftmost. -/
def spriteBit (b : Byte) (c : Nat) : Bool := b.getLsbD (7 - c)

/-- R116: columns `0 .. count - 1`, ascending, of the sprite row `b` at row `py`; wraps per pixel. -/
def State.drawCols (s : State) (x0 py : Nat) (b : Byte) : Nat → State
  | 0     => s
  | c + 1 =>
    let s' := s.drawCols x0 py b c
    if spriteBit b c then s'.togglePixel ((x0 + c) % s'.cfg.displayWidth) py else s'

/-- R116: rows `0 .. count - 1`, ascending, of the sprite at `I`. -/
def State.drawRows (s : State) (x0 y0 : Nat) : Nat → State
  | 0     => s
  | r + 1 =>
    let s' := s.drawRows x0 y0 r
    s'.drawCols x0 ((y0 + r) % s'.cfg.displayHeight) (s'.memRead (s'.elementAddr r)) 8

/-- R116 `DXYN`: the position is read, `VF` is cleared, then the rows are drawn. -/
def execDrw (x y : Reg) (n : Nat) (s : State) : Host.Outcome State Fault Refusal :=
  .next ((s.writeVF 0).drawRows (s.readV x).toNat (s.readV y).toNat n)

end Sys2Proof.Machine
end

