-- ==== Sys2Proof/Machine/IndexMemory.lean ====
section
/-! DEFINITION. Index register and memory instructions (spec 43_index_memory.md R105 to R111). -/

namespace Sys2Proof.Machine

/-- R105 `ANNN`. -/
def execLdI (nnn : Addr12) (s : State) : Host.Outcome State Fault Refusal :=
  .next (s.setI (zext12 nnn))

/-- R106: `VF` after `FX1E`, from the values before it. -/
def State.reportOverflow (s : State) (overflow : Bool) : State :=
  if s.cfg.addiOverflowVF then s.writeVF (flagByte overflow) else s

/-- R106 `FX1E`: `V[X]` is read before `VF` is written. -/
def execAddI (x : Reg) (s : State) : Host.Outcome State Fault Refusal :=
  .next ((s.setI (s.i + zext8 (s.readV x))).reportOverflow (indexOverflow s.cfg.memSize s.i (s.readV x)))

/-- R107 `FX29`. -/
def execLdF (x : Reg) (s : State) : Host.Outcome State Fault Refusal :=
  .next (s.setI (glyphAddr s.cfg (lowNibble (s.readV x))))

/-- R108 `FX33`. -/
def execLdB (x : Reg) (s : State) : Host.Outcome State Fault Refusal :=
  .next (s.memWriteAll (s.elementAddr 0) (bcdDigits (s.readV x)))

/-- R109 `FX55`: `V0 .. VX` to RAM from `I` up, then `I`. -/
def execStoreBlock (x : Reg) (s : State) : Host.Outcome State Fault Refusal :=
  .next ((s.memWriteAll (s.elementAddr 0) (s.firstRegs (x.val + 1))).advanceI (x.val + 1))

/-- R110: `V[0] .. V[count - 1]` from RAM at `base` up, in ascending order. -/
def State.loadRegs (s : State) (base : Nat) : Nat → State
  | 0     => s
  | k + 1 => (s.loadRegs base k).writeV (Fin.ofNat 16 k) ((s.loadRegs base k).memRead (base + k))

/-- R110 `FX65`: RAM to `V0 .. VX`, then `I`. -/
def execLoadBlock (x : Reg) (s : State) : Host.Outcome State Fault Refusal :=
  .next ((s.loadRegs (s.elementAddr 0) (x.val + 1)).advanceI (x.val + 1))

end Sys2Proof.Machine
end

