-- ==== Sys2Proof/Machine/KeysTimers.lean ====
section
/-! DEFINITION. Key and timer instructions (spec 45_keys_timers.md R122 to R127). -/

namespace Sys2Proof.Machine

/-- R122 `EX9E`. -/
def execSkp (x : Reg) (s : State) : Host.Outcome State Fault Refusal :=
  .next (s.skipIf (s.readKey (lowNibble (s.readV x))))

/-- R123 `EXA1`. -/
def execSknp (x : Reg) (s : State) : Host.Outcome State Fault Refusal :=
  .next (s.skipIf (!s.readKey (lowNibble (s.readV x))))

/-- R124 `FX0A`: the least pressed key, or back to this instruction. -/
def execLdVxK (x : Reg) (s : State) : Host.Outcome State Fault Refusal :=
  match s.firstKey with
  | some k => .next (s.writeV x (BitVec.ofNat 8 k.val))
  | none   => .next s.rewindPC

/-- R125 `FX07`. -/
def execLdVxDT (x : Reg) (s : State) : Host.Outcome State Fault Refusal :=
  .next (s.writeV x s.dt)

/-- R126 `FX15`. -/
def execLdDTVx (x : Reg) (s : State) : Host.Outcome State Fault Refusal :=
  .next (s.setDT (s.readV x))

/-- R127 `FX18`. -/
def execLdSTVx (x : Reg) (s : State) : Host.Outcome State Fault Refusal :=
  .next (s.setST (s.readV x))

end Sys2Proof.Machine
end

