-- ==== Sys2Proof/Machine/Step.lean ====
section
/-! DEFINITION. One `Step` (spec 40_engine_cycle.md R62, R69), and placing the next instruction. -/

namespace Sys2Proof.Machine

/-- R62 `Step()`: fetch, advance `PC` by 2, decode, execute; a word that matches no row raises
`UnsupportedOpcode` (R132).  When the engine is not `Ready` it does nothing, which the model answers with a
refusal (R69).  The key snapshot of R63 is the state's own key slots: no key write lands inside a step. -/
def step (s : State) : Host.Outcome State Fault Refusal :=
  match s.notReady with
  | some r => .refused r
  | none =>
    match s.fetchInstr with
    | .ok i    => exec i s.advancePC
    | .error _ => raiseUnsupported s.fetchWord s.advancePC

/-- `s` with the engine `Ready` and the word that the table's bits `w` stand for in the two cells that the
next `Step` fetches, as a `Load` of that program would place it (log entry 11). -/
def State.withFetchWord (s : State) (nbits w : Nat) : State :=
  { s.memWriteAll s.pc.toNat [(tableWord nbits w).extractLsb' 8 8, (tableWord nbits w).extractLsb' 0 8]
    with engine := .ready, fault := none }

end Sys2Proof.Machine
end

