-- ==== Sys2Proof/Machine/Load.lean ====
section
/-! DEFINITION. `Load`, the only reset (spec 70_reset_and_hazards.md R151 to R153, 00_scope.md R5,
20_memory.md R38, 60_exceptions.md R135 to R137). -/

namespace Sys2Proof.Machine

open Sys2Proof.Config

/-- R5 (e): finite and `>= 0`. -/
def isNonNegative : HostReal → Bool
  | .finite q  => decide (0 ≤ q)
  | .nonFinite => false

/-- R153, check 8: the font and program regions overlap. -/
def regionsOverlap (c : RawCfg) (len : Nat) : Bool :=
  decide (0 < len ∧ c.fontOffset < c.programOffset + len ∧ c.programOffset < c.fontOffset + fontLength)

/-- R153: the ten checks, in order, on a configuration and a program of `len` bytes; the first that fails is
the fault. -/
def loadFault (c : RawCfg) (len : Nat) : Option Fault :=
  if ¬ (1 ≤ c.memSize ∧ c.memSize ≤ 65536) then some (.invalidConfiguration .memSize)
  else if ¬ (0 ≤ c.programOffset ∧ c.programOffset < c.memSize) then some (.invalidConfiguration .programOffset)
  else if ¬ (0 ≤ c.fontOffset ∧ c.fontOffset < c.memSize) then some (.invalidConfiguration .fontOffset)
  else if ¬ 1 ≤ c.stackDepth then some (.invalidConfiguration .stackDepth)
  else if ¬ 1 ≤ c.displayWidth then some (.invalidConfiguration .displayWidth)
  else if ¬ 1 ≤ c.displayHeight then some (.invalidConfiguration .displayHeight)
  else if ¬ isNonNegative c.targetFreqInit then some (.invalidConfiguration .targetFreqInit)
  else if c.fontVariant.isNone then some (.invalidConfiguration .fontVariant)
  else if regionsOverlap c len then some (.invalidConfiguration .fontOffset)
  else if c.memSize < c.fontOffset + fontLength then
    some (.outOfMemory .font c.fontOffset fontLength c.memSize)
  else if c.memSize < c.programOffset + len then
    some (.outOfMemory .program c.programOffset len c.memSize)
  else none

/-- The number of a checked frequency. -/
def realValue : HostReal → Rat
  | .finite q  => q
  | .nonFinite => 0

/-- R22: the snapshot that is latched, of a configuration that passed the checks. -/
def latch (c : RawCfg) : Cfg where
  memSize        := c.memSize.toNat
  programOffset  := c.programOffset.toNat
  fontOffset     := c.fontOffset.toNat
  stackDepth     := c.stackDepth.toNat
  displayWidth   := c.displayWidth.toNat
  displayHeight  := c.displayHeight.toNat
  targetFreqInit := realValue c.targetFreqInit
  fontVariant    := c.fontVariant.getD .standard
  shiftUsesVY    := c.shiftUsesVY
  jumpUsesVX     := c.jumpUsesVX
  memIncrementsI := c.memIncrementsI
  addiOverflowVF := c.addiOverflowVF

/-- R38: byte `k` of the program at `a + k`, with no modulo. -/
def Memory.place (c : Cfg) (m : Memory) (a : Nat) : List Byte → Memory
  | []      => m
  | b :: bs => Memory.place c (Cells.set (resetByte c) m a b) (a + 1) bs

/-- R152, after the checks: the state of R26.  The zeros and the font are what unlisted cells read as. -/
def loadedState (c : Cfg) (program : List Byte) (draws : Nat) : State :=
  { State.afterLoad c draws with mem := Memory.place c [] c.programOffset program }

/-- R137, R27: after a failed `Load` the engine is `Faulted` with the load's fault and everything else is
unspecified, hence a fresh free value (log entry 5). -/
def loadFailedState (s : State) (f : Fault) : State :=
  { (unspecifiedState s.draws).enterFault f with loaded := s.loaded, draws := s.draws + 1 }

/-- R152 `Load(cfg, program)`: legal in every engine state; nothing of the earlier state survives but the
model's own fields. -/
def load (c : RawCfg) (program : List Byte) (s : State) : State :=
  match loadFault c program.length with
  | some f => loadFailedState s f
  | none   => loadedState (latch c) program s.draws

/-- A configuration that is already in range, as the host hands it over. -/
def rawOf (c : Cfg) : RawCfg where
  memSize        := c.memSize
  programOffset  := c.programOffset
  fontOffset     := c.fontOffset
  stackDepth     := c.stackDepth
  displayWidth   := c.displayWidth
  displayHeight  := c.displayHeight
  targetFreqInit := .finite c.targetFreqInit
  fontVariant    := some c.fontVariant
  shiftUsesVY    := c.shiftUsesVY
  jumpUsesVX     := c.jumpUsesVX
  memIncrementsI := c.memIncrementsI
  addiOverflowVF := c.addiOverflowVF

end Sys2Proof.Machine
end

