-- ==== Sys2Proof/Machine/HostOps.lean ====
section
/-! DEFINITION. What the host can do to the core (spec 40_engine_cycle.md R60 to R73, 60_exceptions.md R142,
R143, 10_state.md R28): one transition per row of the interface table of R73 (log entry 6). -/

namespace Sys2Proof.Machine

open Sys2Proof.Config

/-! ### Keys and target frequency -/

/-- One key write of the host (R70). -/
structure KeyWrite where
  key     : Key
  pressed : Bool
deriving DecidableEq, Repr, Inhabited

/-- R70: the key writes that land between two `Step`s, in their order. -/
def State.applyKeys (s : State) : List KeyWrite → State
  | []      => s
  | w :: ws => (s.setKeySlot w.key w.pressed).applyKeys ws

/-- R70, R73 `SetKey(i, pressed)`: legal in every engine state once a `Load` has succeeded. -/
def setKey (k : Key) (pressed : Bool) (s : State) : Host.Outcome State Fault Refusal :=
  if s.loaded then .next (s.setKeySlot k pressed) else .refused .notLoaded

/-- R23, R73 `SetTargetFreq(f)`: `Ready`, and a finite real `>= 0`. -/
def setTargetFreq (f : HostReal) (s : State) : Host.Outcome State Fault Refusal :=
  match s.notReady with
  | some _ => .refused .targetFreqNotReady
  | none =>
    if isNonNegative f then .next { s with targetFreq := realValue f }
    else .refused .targetFreqValue

/-! ### Update -/

/-- R142: one timer's tick. -/
def tick (b : Byte) : Byte := if b = 0 then 0 else b - 1

/-- R142 `TimerTick()`. -/
def State.timerTick (s : State) : State := (s.setDT (tick s.dt)).setST (tick s.st)

/-- R66 `InstructionCount(f, t)`: exact, then floored; at least 1. -/
def instructionCount (f t : Rat) : Nat := max 1 (f * t / 1000).floor.toNat

/-- R65, R67: `count` steps, stopping at the first that leaves the engine `Faulted`.  The `k`-th list of
`writes` holds the key writes that land before the `k`-th step (R63). -/
def runSteps (writes : List (List KeyWrite)) (s : State) : Nat → Host.Outcome State Fault Refusal
  | 0         => .next s
  | count + 1 =>
    match step (s.applyKeys (writes.headD [])) with
    | .next s'   => if s'.engine = .ready then runSteps writes.tail s' count else .next s'
    | .fault r   => .fault r
    | .refused r => .refused r

/-- R65, R67: the timers tick only at the end of a fault-free `Update`. -/
def finishUpdate : Host.Outcome State Fault Refusal → Host.Outcome State Fault Refusal
  | .next s    => if s.engine = .ready then .next s.timerTick else .next s
  | .fault r   => .fault r
  | .refused r => .refused r

/-- R65 `Update(elapsedTimeMs)`, with the key writes that land during it. -/
def update (t : HostReal) (writes : List (List KeyWrite)) (s : State) : Host.Outcome State Fault Refusal :=
  match s.notReady, t with
  | some r, _            => .refused r
  | none, .nonFinite     => .refused .nonFiniteElapsedTime
  | none, .finite millis =>
    finishUpdate (runSteps writes (s.setDirty false) (instructionCount s.targetFreq millis))

/-! ### The operations that change state, together -/

/-- The rows of R73 that act on the core. -/
inductive HostOp where
  | load (cfg : RawCfg) (program : List Byte)
  | update (elapsedTimeMs : HostReal) (writes : List (List KeyWrite))
  | step
  | setKey (key : Key) (pressed : Bool)
  | setTargetFreq (f : HostReal)
deriving DecidableEq, Repr, Inhabited

/-- R73: one transition of the core. -/
def hostOp : HostOp → State → Host.Outcome State Fault Refusal
  | .load c program, s   => .next (load c program s)
  | .update t writes, s  => update t writes s
  | .step, s             => step s
  | .setKey k pressed, s => setKey k pressed s
  | .setTargetFreq f, s  => setTargetFreq f s

/-- R72: a run is a finite sequence of host operations; the first that is refused ends it. -/
def hostRun : List HostOp → State → Host.Outcome State Fault Refusal
  | [], s        => .next s
  | op :: ops, s =>
    match hostOp op s with
    | .next s'   => hostRun ops s'
    | .fault r   => .fault r
    | .refused r => .refused r

/-! ### Host reads: no operation below changes the state (R71) -/

/-- What the host can read (R28, R71, R73). -/
inductive HostQuery where
  | pixel (x y : Nat)
  | dirty
  | engineState
  | fault
  | register (x : Reg)
  | index
  | programCounter
  | stack
  | memory (a : Nat)
  | delayTimer
  | soundTimer
  | key (k : Key)
  | configuration
  | targetFreq
deriving DecidableEq, Repr, Inhabited

/-- What the host is answered. -/
inductive HostAnswer where
  | bit (b : Bool)
  | byte (b : Byte)
  | word (w : Word)
  | words (ws : List Word)
  | engine (e : EngineState)
  | faultRecord (f : Option Fault)
  | cfg (c : Cfg)
  | real (q : Rat)
deriving DecidableEq, Repr, Inhabited

/-- The answer of an item that exists, for a core that some `Load` has built (R71, R28). -/
def observe (s : State) : HostQuery → Except Refusal HostAnswer
  | .pixel x y      =>
    if x < s.cfg.displayWidth ∧ y < s.cfg.displayHeight then .ok (.bit (s.pixRead x y)) else .error .noSuchItem
  | .dirty          => .ok (.bit s.dirty)
  | .engineState    => .ok (.engine s.engine)
  | .fault          => .ok (.faultRecord (if s.engine = .faulted then s.fault else none))
  | .register x     => .ok (.byte (s.readV x))
  | .index          => .ok (.word s.i)
  | .programCounter => .ok (.word s.pc)
  | .stack          => .ok (.words s.stack.reverse)
  | .memory a       => if a < s.cfg.memSize then .ok (.byte (s.memRead a)) else .error .noSuchItem
  | .delayTimer     => .ok (.byte s.dt)
  | .soundTimer     => .ok (.byte s.st)
  | .key k          => .ok (.bit (s.readKey k))
  | .configuration  => .ok (.cfg s.cfg)
  | .targetFreq     => .ok (.real s.targetFreq)

/-- R73: `ReadFault` (with `ENGINE_STATE`) is always legal, the other reads once a `Load` has succeeded. -/
def hostRead (q : HostQuery) (s : State) : Except Refusal HostAnswer :=
  match q with
  | .engineState => observe s .engineState
  | .fault       => observe s .fault
  | _            => if s.loaded then observe s q else .error .notLoaded

end Sys2Proof.Machine
end

