-- ==== Sys2Proof/Safety.lean ====
section
/-! DEFINITION. What a safe run is, and the invariant of every state that a run reaches (spec 10_state.md
R15, R16, R17, R23, R24, 00_scope.md R5, 60_exceptions.md R137, 40_engine_cycle.md R72). -/

namespace Sys2Proof.Machine

open Sys2Proof.Config

/-- R5 without (f) and (g), which concern the selector and the program handed to `Load`; and that the font
fits (R153, check 9). -/
abbrev CfgValid (c : Cfg) : Prop :=
  1 ≤ c.memSize ∧ c.memSize ≤ 65536 ∧ c.programOffset < c.memSize ∧ c.fontOffset < c.memSize ∧
  c.fontOffset + fontLength ≤ c.memSize ∧ 1 ≤ c.stackDepth ∧ 1 ≤ c.displayWidth ∧ 1 ≤ c.displayHeight ∧
  0 ≤ c.targetFreqInit

/-- What holds of every state after the first successful `Load`, `Ready` or faulted by a `Step`:
the latched configuration is valid; memory and framebuffer are in their canonical form; the stack is within
its depth (R15); the frequency is not negative (R23); the fault record is there exactly in `Faulted` (R24);
and the core is loaded. -/
abbrev State.Inv (s : State) : Prop :=
  CfgValid s.cfg ∧ Memory.wf s.cfg s.mem = true ∧ FrameBuffer.wf s.cfg s.fb = true ∧
  s.stack.length ≤ s.cfg.stackDepth ∧ 0 ≤ s.targetFreq ∧
  (s.engine = .faulted ↔ s.fault.isSome) ∧ s.engine ≠ .unloaded ∧ s.loaded = true

/-- A state from which the machine goes on: the engine is `Ready`.  `Faulted` is never a final state of a
successful run (R137). -/
abbrev State.Good (s : State) : Prop := s.engine = .ready

/-- A run of host operations that ends in a good state.  A fault inside it may only stand before a later
successful `Load` (R138). -/
abbrev SafeRun (ops : List HostOp) (s t : State) : Prop := hostRun ops s = .next t ∧ t.Good

end Sys2Proof.Machine
end

