-- ==== Sys2Proof/Certificates/Slice0/Obligations.lean ====
section
/-! DEFINITION. The statements for the provers.  Each docstring names the rule of spec/ it formalises.  A
statement about `exec i s` is about the state in which the instruction executes: `PC` is already advanced
(40_engine_cycle.md R62), so "no change of `PC`" is "beyond the advance by `Step`". -/

open Sys2Proof Sys2Proof.Config Sys2Proof.Machine

namespace Sys2Proof.Spec

/-! ### Words, as the patterns of 30_encoding.md R51 write them -/

/-- `oNNN`. -/
def wordNNN (op : Nat) (nnn : Addr12) : Word := BitVec.ofNat 16 (op * 0x1000 + nnn.toNat)

/-- `oXkk`. -/
def wordXNN (op : Nat) (x : Reg) (nn : Nat) : Word := BitVec.ofNat 16 (op * 0x1000 + x.val * 0x100 + nn)

/-- `oXYn`. -/
def wordXYN (op : Nat) (x y : Reg) (n : Nat) : Word :=
  BitVec.ofNat 16 (op * 0x1000 + x.val * 0x100 + y.val * 0x10 + n)

/-! ### Frames -/

/-- What an operation may change; everything not named is unchanged. -/
structure Touched where
  /-- general registers -/
  reg      : Reg → Prop := fun _ => False
  index    : Prop := False
  pc       : Prop := False
  stack    : Prop := False
  /-- cells of RAM, by effective address -/
  cell     : Nat → Prop := fun _ => False
  pixels   : Prop := False
  dirty    : Prop := False
  delay    : Prop := False
  sound    : Prop := False
  keys     : Prop := False
  cfg      : Prop := False
  freq     : Prop := False
  /-- `ENGINE_STATE` and `FAULT` -/
  engine   : Prop := False
  /-- the model's own count of draws -/
  draws    : Prop := False

/-- `t` differs from `s` at most in what `w` names: every register, every byte of memory and every pixel is
compared through the model's reads. -/
def Frame (w : Touched) (s t : State) : Prop :=
  (∀ r, ¬ w.reg r → t.readV r = s.readV r) ∧
  (¬ w.index → t.i = s.i) ∧
  (¬ w.pc → t.pc = s.pc) ∧
  (¬ w.stack → t.stack = s.stack) ∧
  (∀ a, ¬ w.cell (effectiveAddr s.cfg a) → t.memRead a = s.memRead a) ∧
  (¬ w.pixels → ∀ px py, t.pixRead px py = s.pixRead px py) ∧
  (¬ w.dirty → t.dirty = s.dirty) ∧
  (¬ w.delay → t.dt = s.dt) ∧
  (¬ w.sound → t.st = s.st) ∧
  (¬ w.keys → ∀ k, t.readKey k = s.readKey k) ∧
  (¬ w.cfg → t.cfg = s.cfg) ∧
  (¬ w.freq → t.targetFreq = s.targetFreq) ∧
  (¬ w.engine → t.engine = s.engine ∧ t.fault = s.fault) ∧
  t.loaded = s.loaded ∧
  (¬ w.draws → t.draws = s.draws)

/-- The value a flag-writing instruction leaves in register `r`: the flag in `VF` (it wins, R102), the result
in the destination, the old value elsewhere. -/
def resultThenFlag (s : State) (x : Reg) (result : Nat) (flag : Prop) [Decidable flag] (r : Reg) : Nat :=
  if r = 15 then (if flag then 1 else 0) else if r = x then result else (s.readV r).toNat

/-! ### Illegal words -/

/-- A line of the table of 30_encoding.md R52: the group `op`, and the low nibble `n`, low byte `nn` and low
twelve bits `nnn` that make the word illegal. -/
abbrev IllegalIn (op n nn nnn : Nat) : Prop :=
  (op = 0x0 ∧ nnn ≠ 0x0E0 ∧ nnn ≠ 0x0EE) ∨
  (op = 0x5 ∧ n ≠ 0) ∨
  (op = 0x8 ∧ n ∈ [0x8, 0x9, 0xA, 0xB, 0xC, 0xD, 0xF]) ∨
  (op = 0x9 ∧ n ≠ 0) ∨
  (op = 0xE ∧ nn ∉ [0x9E, 0xA1]) ∨
  (op = 0xF ∧ nn ∉ [0x07, 0x0A, 0x15, 0x18, 0x1E, 0x29, 0x33, 0x55, 0x65])

/-- The table of R52, by the digits of the word. -/
abbrev IllegalWord (w : Word) : Prop :=
  IllegalIn (w.toNat / 0x1000) (w.toNat % 0x10) (w.toNat % 0x100) (w.toNat % 0x1000)

/-! ### Sprites -/

/-- The pixels that the set bits of the sprite name, in drawing order (44_display.md R116): one entry for
each row `r < n` and column `c < 8` whose bit `7 - c` is 1, wrapped on both axes. -/
def spriteHits (s : State) (x y : Reg) (n : Nat) : List (Nat × Nat) :=
  (List.range n).flatMap fun r =>
    ((List.range 8).filter fun c => (s.memRead (s.i.toNat + r)).toNat / 2 ^ (7 - c) % 2 = 1).map fun c =>
      (((s.readV x).toNat + c) % s.cfg.displayWidth, ((s.readV y).toNat + r) % s.cfg.displayHeight)

/-! ### Steps of an `Update` -/

/-- `n` steps from `s` end in `u`, every one of them `Ready`; `writes` holds the key writes that land before
each (40_engine_cycle.md R63, R65). -/
def StepsReady : List (List KeyWrite) → Nat → State → State → Prop
  | _, 0, s, u          => u = s
  | writes, n + 1, s, u =>
    ∃ m, step (s.applyKeys (writes.headD [])) = .next m ∧ m.engine = .ready ∧ StepsReady writes.tail n m u

/-! ### Load -/

/-- The first `k` checks of 70_reset_and_hazards.md R153 hold. -/
def ChecksHold (k : Nat) (c : RawCfg) (len : Nat) : Prop :=
  (1 ≤ k → 1 ≤ c.memSize ∧ c.memSize ≤ 65536) ∧
  (2 ≤ k → 0 ≤ c.programOffset ∧ c.programOffset < c.memSize) ∧
  (3 ≤ k → 0 ≤ c.fontOffset ∧ c.fontOffset < c.memSize) ∧
  (4 ≤ k → 1 ≤ c.stackDepth) ∧
  (5 ≤ k → 1 ≤ c.displayWidth ∧ 1 ≤ c.displayHeight) ∧
  (6 ≤ k → ∃ f, c.targetFreqInit = .finite f ∧ 0 ≤ f) ∧
  (7 ≤ k → c.fontVariant ≠ none) ∧
  (8 ≤ k → ¬ (0 < len ∧ c.fontOffset < c.programOffset + len ∧ c.programOffset < c.fontOffset + 80)) ∧
  (9 ≤ k → c.fontOffset + 80 ≤ c.memSize) ∧
  (10 ≤ k → c.programOffset + len ≤ c.memSize)

/-- `Load` raises `f`: the engine is `Faulted` and the record is `f` (60_exceptions.md R137). -/
def LoadRaises (c : RawCfg) (program : List Byte) (s : State) (f : Fault) : Prop :=
  (load c program s).engine = .faulted ∧ (load c program s).fault = some f

/-! ### Who writes what -/

/-- The register that an instruction names as its destination `X`. -/
def namedDest : Instr → Option Reg
  | .ldByte x _ | .addByte x _ | .ldReg x _ | .orReg x _ | .andReg x _ | .xorReg x _ | .addReg x _
  | .subReg x _ | .shrReg x _ | .subnReg x _ | .shlReg x _ | .rnd x _ | .ldVxDT x | .ldVxK x => some x
  | _ => none

/-- The instructions that write `VF` as a side effect (10_state.md R12). -/
def writesFlag (c : Cfg) : Instr → Bool
  | .addReg _ _ | .subReg _ _ | .subnReg _ _ | .shrReg _ _ | .shlReg _ _ | .drw _ _ _ => true
  | .addI _ => c.addiOverflowVF
  | _ => false

end Sys2Proof.Spec

open Sys2Proof.Spec

/-! ## Encoding -/

/-- Decoding the word of a well-formed instruction gives it back, every operand at every value. -/
def Obligations.DecodeEncodeRoundTrip : Prop :=
  ∀ i : Instr, i.wellFormed = true → decode (encode i) = .ok i

/-- The other direction: a word that decodes is the word of the instruction it decodes to, which is
well-formed.  No two words stand for one instruction. -/
def Obligations.EncodeOfDecodedWord : Prop :=
  ∀ (w : Word) (i : Instr), decode w = .ok i → encode i = w ∧ i.wellFormed = true

/-- R52's table: exactly the words it lists are rejected, each by name. -/
def Obligations.RejectedWordsAreTheIllegalOnes : Prop :=
  ∀ w : Word, (IllegalWord w → decode w = .error (.unsupportedOpcode w)) ∧
    (¬ IllegalWord w → ∃ i, decode w = .ok i)

/-- R47, R48: the fields of every word, and `NNN = (X << 8) | (Y << 4) | N`. -/
def Obligations.FieldsOfEveryWord : Prop :=
  ∀ w : Word,
    (fields w).op.val = w.toNat / 0x1000 ∧ (fields w).x.val = w.toNat / 0x100 % 0x10 ∧
    (fields w).y.val = w.toNat / 0x10 % 0x10 ∧ (fields w).n.val = w.toNat % 0x10 ∧
    (fields w).nn.toNat = w.toNat % 0x100 ∧ (fields w).nnn.toNat = w.toNat % 0x1000 ∧
    (fields w).nnn.toNat = (fields w).x.val * 0x100 + (fields w).y.val * 0x10 + (fields w).n.val ∧
    (fields w).nn.toNat = (fields w).y.val * 0x10 + (fields w).n.val

/-- Sanity: one word of each family, written out from the patterns of R51. -/
def Obligations.WrittenOutWordsDecode : Prop :=
  decode 0x00E0 = .ok .cls ∧ decode 0x00EE = .ok .ret ∧ decode 0x1ABC = .ok (.jp 0xABC) ∧
  decode 0x6A05 = .ok (.ldByte 10 0x05) ∧ decode 0x8ABE = .ok (.shlReg 10 11) ∧
  decode 0xA2F0 = .ok (.ldI 0x2F0) ∧ decode 0xD125 = .ok (.drw 1 2 5) ∧ decode 0xE49E = .ok (.skp 4) ∧
  decode 0xF30A = .ok (.ldVxK 3) ∧ decode 0xFF65 = .ok (.loadBlock 15)

/-! ## Step -/

/-- R62: a `Ready` engine fetches the big-endian word at `PC`, advances `PC` by 2 modulo 65536 and executes
the instruction of that word's row on the state it then has; a word that matches no row raises
`UnsupportedOpcode` with the word and the address it came from. -/
def Obligations.StepRunsTheFetchedInstruction : Prop :=
  ∀ s : State, s.engine = .ready →
    (∀ i, decode (s.fetch16 s.pc.toNat) = .ok i → step s = exec i { s with pc := s.pc + 2 }) ∧
    (∀ e, decode (s.fetch16 s.pc.toNat) = .error e →
      step s = .next { s with
        pc := s.pc + 2, engine := .faulted, fault := some (.unsupportedOpcode (s.fetch16 s.pc.toNat) s.pc) })

/-- R132 with R137: an illegal word at `PC` records the word and its address, leaves `PC = a + 2` and changes
nothing else. -/
def Obligations.IllegalWordFaultsPrecisely : Prop :=
  ∀ s : State, s.engine = .ready → IllegalWord (s.fetch16 s.pc.toNat) →
    ∃ t, step s = .next t ∧ t.engine = .faulted ∧
      t.fault = some (.unsupportedOpcode (s.fetch16 s.pc.toNat) s.pc) ∧
      t.pc.toNat = (s.pc.toNat + 2) % 65536 ∧ Frame { pc := True, engine := True } s t

/-- R69: a `Step` or an `Update` of an engine that is not `Ready` is refused, so nothing changes. -/
def Obligations.NotReadyIsRefused : Prop :=
  ∀ s : State, s.engine ≠ .ready →
    (∃ r, step s = .refused r) ∧ ∀ t writes, ∃ r, update t writes s = .refused r

/-- R61, R131: what ends `Ready`.  A step of a `Ready` engine leaves it `Faulted` exactly for an illegal word,
a call at capacity and a return on an empty stack, and `Ready` otherwise; it is never refused. -/
def Obligations.ReadyEndsOnlyInTheThreeStepFaults : Prop :=
  ∀ s : State, s.engine = .ready →
    let w := s.fetch16 s.pc.toNat
    let stops := IllegalWord w ∨ ((∃ nnn, decode w = .ok (.call nnn)) ∧ s.cfg.stackDepth ≤ s.stack.length) ∨
      (decode w = .ok .ret ∧ s.stack = [])
    ∃ t, step s = .next t ∧ (stops → t.engine = .faulted) ∧ (¬ stops → t.engine = .ready)

/-! ## Control transfer -/

/-- R76 RET; what the fault records is `StackFaultsRecordTheirInstruction`. -/
def Obligations.ReturnPopsIntoPC : Prop :=
  decode 0x00EE = .ok .ret ∧
  ∀ s : State,
    (∀ a rest, s.stack = a :: rest →
      ∃ t, exec .ret s = .next t ∧ t.pc = a ∧ t.stack = rest ∧ Frame { pc := True, stack := True } s t) ∧
    (s.stack = [] →
      ∃ t, exec .ret s = .next t ∧ t.engine = .faulted ∧ (∃ a w, t.fault = some (.stackUnderflow a w)) ∧
        Frame { engine := True } s t)

/-- R77 JP addr. -/
def Obligations.JumpSetsPC : Prop :=
  ∀ (nnn : Addr12) (s : State), decode (wordNNN 0x1 nnn) = .ok (.jp nnn) ∧
    ∃ t, exec (.jp nnn) s = .next t ∧ t.pc.toNat = nnn.toNat ∧ Frame { pc := True } s t

/-- R78 CALL addr; what the fault records is `StackFaultsRecordTheirInstruction`. -/
def Obligations.CallPushesPC : Prop :=
  ∀ (nnn : Addr12) (s : State), decode (wordNNN 0x2 nnn) = .ok (.call nnn) ∧
    (s.stack.length < s.cfg.stackDepth →
      ∃ t, exec (.call nnn) s = .next t ∧ t.pc.toNat = nnn.toNat ∧ t.stack = s.pc :: s.stack ∧
        Frame { pc := True, stack := True } s t) ∧
    (s.stack.length = s.cfg.stackDepth →
      ∃ t, exec (.call nnn) s = .next t ∧ t.engine = .faulted ∧ (∃ a w, t.fault = some (.stackOverflow a w)) ∧
        Frame { engine := True } s t)

/-- R133, R134: a call at capacity and a return on an empty stack, at address `a`: the record holds `a` and the
word there, `PC` is `a + 2`, nothing is pushed or popped and nothing else changes. -/
def Obligations.StackFaultsRecordTheirInstruction : Prop :=
  ∀ (nnn : Addr12) (s : State), s.engine = .ready →
    (s.fetch16 s.pc.toNat = wordNNN 0x2 nnn → s.stack.length = s.cfg.stackDepth →
      ∃ t, step s = .next t ∧ t.engine = .faulted ∧ t.fault = some (.stackOverflow s.pc (wordNNN 0x2 nnn)) ∧
        t.pc.toNat = (s.pc.toNat + 2) % 65536 ∧ Frame { pc := True, engine := True } s t) ∧
    (s.fetch16 s.pc.toNat = 0x00EE → s.stack = [] →
      ∃ t, step s = .next t ∧ t.engine = .faulted ∧ t.fault = some (.stackUnderflow s.pc 0x00EE) ∧
        t.pc.toNat = (s.pc.toNat + 2) % 65536 ∧ Frame { pc := True, engine := True } s t)

/-- R79 SE Vx, byte and R80 SNE Vx, byte. -/
def Obligations.SkipOnByte : Prop :=
  ∀ (x : Reg) (nn : Byte) (s : State),
    decode (wordXNN 0x3 x nn.toNat) = .ok (.seByte x nn) ∧
    (∃ t, exec (.seByte x nn) s = .next t ∧
      t.pc.toNat = (if s.readV x = nn then (s.pc.toNat + 2) % 65536 else s.pc.toNat) ∧
      Frame { pc := True } s t) ∧
    decode (wordXNN 0x4 x nn.toNat) = .ok (.sneByte x nn) ∧
    (∃ t, exec (.sneByte x nn) s = .next t ∧
      t.pc.toNat = (if s.readV x = nn then s.pc.toNat else (s.pc.toNat + 2) % 65536) ∧
      Frame { pc := True } s t)

/-- R81 SE Vx, Vy and R82 SNE Vx, Vy; other `N` are illegal. -/
def Obligations.SkipOnRegister : Prop :=
  ∀ (x y : Reg) (s : State),
    decode (wordXYN 0x5 x y 0) = .ok (.seReg x y) ∧
    (∃ t, exec (.seReg x y) s = .next t ∧
      t.pc.toNat = (if s.readV x = s.readV y then (s.pc.toNat + 2) % 65536 else s.pc.toNat) ∧
      Frame { pc := True } s t) ∧
    decode (wordXYN 0x9 x y 0) = .ok (.sneReg x y) ∧
    (∃ t, exec (.sneReg x y) s = .next t ∧
      t.pc.toNat = (if s.readV x = s.readV y then s.pc.toNat else (s.pc.toNat + 2) % 65536) ∧
      Frame { pc := True } s t) ∧
    ∀ n, 0 < n → n < 16 → decode (wordXYN 0x5 x y n) = .error (.unsupportedOpcode (wordXYN 0x5 x y n)) ∧
      decode (wordXYN 0x9 x y n) = .error (.unsupportedOpcode (wordXYN 0x9 x y n))

/-- R83 JP V0, addr: the toggle chooses `V[0]` or the register that the top nibble of `NNN` names. -/
def Obligations.JumpWithOffset : Prop :=
  ∀ (nnn : Addr12) (s : State) (r : Reg),
    r.val = (if s.cfg.jumpUsesVX then nnn.toNat / 0x100 else 0) →
    decode (wordNNN 0xB nnn) = .ok (.jpV0 nnn) ∧
    ∃ t, exec (.jpV0 nnn) s = .next t ∧ t.pc.toNat = ((s.readV r).toNat + nnn.toNat) % 65536 ∧
      Frame { pc := True } s t

/-- A call that finds room and the return after it restore the stack, and `PC` to the value it had when the
call executed, which is the call's own address plus 2 (derived from R76, R78; QC8 §8). -/
def Obligations.CallThenReturnComesBack : Prop :=
  ∀ (nnn : Addr12) (s t : State), s.stack.length < s.cfg.stackDepth → exec (.call nnn) s = .next t →
    ∀ u, u.stack = t.stack → ∃ v, exec .ret u = .next v ∧ v.pc = s.pc ∧ v.stack = s.stack

/-! ## Registers, arithmetic, logic, shifts, random -/

/-- R90 LD Vx, byte and R92 LD Vx, Vy. -/
def Obligations.LoadByteAndCopy : Prop :=
  ∀ (x y : Reg) (nn : Byte) (s : State),
    decode (wordXNN 0x6 x nn.toNat) = .ok (.ldByte x nn) ∧
    (∃ t, exec (.ldByte x nn) s = .next t ∧ t.readV x = nn ∧ Frame { reg := (· = x) } s t) ∧
    decode (wordXYN 0x8 x y 0x0) = .ok (.ldReg x y) ∧
    (∃ t, exec (.ldReg x y) s = .next t ∧ t.readV x = s.readV y ∧ Frame { reg := (· = x) } s t)

/-- R91 ADD Vx, byte: `VF` is unchanged unless it is the destination. -/
def Obligations.AddByteWrapsWithoutCarry : Prop :=
  ∀ (x : Reg) (nn : Byte) (s : State),
    decode (wordXNN 0x7 x nn.toNat) = .ok (.addByte x nn) ∧
    ∃ t, exec (.addByte x nn) s = .next t ∧
      (t.readV x).toNat = ((s.readV x).toNat + nn.toNat) % 256 ∧ Frame { reg := (· = x) } s t

/-- R93 OR, R94 AND, R95 XOR: bit by bit, `VF` unchanged unless it is the destination. -/
def Obligations.LogicBitByBit : Prop :=
  ∀ (x y : Reg) (s : State),
    decode (wordXYN 0x8 x y 0x1) = .ok (.orReg x y) ∧
    (∃ t, exec (.orReg x y) s = .next t ∧ Frame { reg := (· = x) } s t ∧
      ∀ k < 8, (t.readV x).getLsbD k = ((s.readV x).getLsbD k || (s.readV y).getLsbD k)) ∧
    decode (wordXYN 0x8 x y 0x2) = .ok (.andReg x y) ∧
    (∃ t, exec (.andReg x y) s = .next t ∧ Frame { reg := (· = x) } s t ∧
      ∀ k < 8, (t.readV x).getLsbD k = ((s.readV x).getLsbD k && (s.readV y).getLsbD k)) ∧
    decode (wordXYN 0x8 x y 0x3) = .ok (.xorReg x y) ∧
    (∃ t, exec (.xorReg x y) s = .next t ∧ Frame { reg := (· = x) } s t ∧
      ∀ k < 8, (t.readV x).getLsbD k = ((s.readV x).getLsbD k ^^ (s.readV y).getLsbD k))

/-- R96 ADD Vx, Vy with R102: the flag wins when `X = 15`. -/
def Obligations.AddRegistersWithCarry : Prop :=
  ∀ (x y : Reg) (s : State),
    let sum := (s.readV x).toNat + (s.readV y).toNat
    decode (wordXYN 0x8 x y 0x4) = .ok (.addReg x y) ∧
    ∃ t, exec (.addReg x y) s = .next t ∧
      (∀ r, (t.readV r).toNat = resultThenFlag s x (sum % 256) (255 < sum) r) ∧
      Frame { reg := fun r => r = x ∨ r = 15 } s t

/-- R97 SUB Vx, Vy and R99 SUBN Vx, Vy with R102. -/
def Obligations.SubtractBothDirections : Prop :=
  ∀ (x y : Reg) (s : State),
    let a := (s.readV x).toNat
    let b := (s.readV y).toNat
    decode (wordXYN 0x8 x y 0x5) = .ok (.subReg x y) ∧
    (∃ t, exec (.subReg x y) s = .next t ∧
      (∀ r, (t.readV r).toNat = resultThenFlag s x (if b ≤ a then a - b else a + 256 - b) (b ≤ a) r) ∧
      Frame { reg := fun r => r = x ∨ r = 15 } s t) ∧
    decode (wordXYN 0x8 x y 0x7) = .ok (.subnReg x y) ∧
    (∃ t, exec (.subnReg x y) s = .next t ∧
      (∀ r, (t.readV r).toNat = resultThenFlag s x (if a ≤ b then b - a else b + 256 - a) (a ≤ b) r) ∧
      Frame { reg := fun r => r = x ∨ r = 15 } s t)

/-- R98 SHR Vx, Vy and R100 SHL Vx, Vy with R102: the toggle chooses the value shifted; the bit shifted out
goes to `VF`. -/
def Obligations.ShiftByOneBit : Prop :=
  ∀ (x y : Reg) (s : State) (v : Nat),
    v = (if s.cfg.shiftUsesVY then (s.readV y).toNat else (s.readV x).toNat) →
    decode (wordXYN 0x8 x y 0x6) = .ok (.shrReg x y) ∧
    (∃ t, exec (.shrReg x y) s = .next t ∧
      (∀ r, (t.readV r).toNat = resultThenFlag s x (v / 2) (v % 2 = 1) r) ∧
      Frame { reg := fun r => r = x ∨ r = 15 } s t) ∧
    decode (wordXYN 0x8 x y 0xE) = .ok (.shlReg x y) ∧
    (∃ t, exec (.shlReg x y) s = .next t ∧
      (∀ r, (t.readV r).toNat = resultThenFlag s x (v * 2 % 256) (128 ≤ v) r) ∧
      Frame { reg := fun r => r = x ∨ r = 15 } s t)

/-- R101 RND Vx, byte: the draw of this step masked, whatever byte it is; the next draw is another.  That
draws are numbered by a counter is the model's choice, log entry 3. -/
def Obligations.RandomByteIsMasked : Prop :=
  ∀ (x : Reg) (nn : Byte) (s : State),
    decode (wordXNN 0xC x nn.toNat) = .ok (.rnd x nn) ∧
    ∃ t, exec (.rnd x nn) s = .next t ∧ t.readV x = rndByte s.draws &&& nn ∧ t.draws = s.draws + 1 ∧
      (∀ k < 8, (t.readV x).getLsbD k = true → nn.getLsbD k = true) ∧
      Frame { reg := (· = x), draws := True } s t

/-! ## Index register and memory -/

/-- R105 LD I, addr. -/
def Obligations.LoadIndex : Prop :=
  ∀ (nnn : Addr12) (s : State), decode (wordNNN 0xA nnn) = .ok (.ldI nnn) ∧
    ∃ t, exec (.ldI nnn) s = .next t ∧ t.i.toNat = nnn.toNat ∧ Frame { index := True } s t

/-- R106 ADD I, Vx: the sum modulo 65536, and the overflow report under its toggle. -/
def Obligations.AddToIndex : Prop :=
  ∀ (x : Reg) (s : State),
    let sum := s.i.toNat + (s.readV x).toNat
    decode (wordXNN 0xF x 0x1E) = .ok (.addI x) ∧
    ∃ t, exec (.addI x) s = .next t ∧ t.i.toNat = sum % 65536 ∧
      (s.cfg.addiOverflowVF = true → (t.readV 15).toNat = if s.cfg.memSize ≤ sum then 1 else 0) ∧
      Frame { reg := fun r => r = 15 ∧ s.cfg.addiOverflowVF = true, index := True } s t

/-- R107 LD F, Vx: the address of the glyph that the low nibble names. -/
def Obligations.PointIndexAtGlyph : Prop :=
  ∀ (x : Reg) (s : State),
    decode (wordXNN 0xF x 0x29) = .ok (.ldF x) ∧
    ∃ t, exec (.ldF x) s = .next t ∧
      t.i.toNat = (s.cfg.fontOffset + 5 * ((s.readV x).toNat % 16)) % 65536 ∧ Frame { index := True } s t

/-- R108 LD B, Vx: hundreds, tens and units at `I`, `I + 1`, `I + 2`, each address wrapped on its own; every
other byte is unchanged.  The premise is the invariant's: a valid configuration has room for three cells. -/
def Obligations.DecimalDigitsToMemory : Prop :=
  ∀ (x : Reg) (s : State), CfgValid s.cfg →
    let v := (s.readV x).toNat
    decode (wordXNN 0xF x 0x33) = .ok (.ldB x) ∧
    ∃ t, exec (.ldB x) s = .next t ∧
      (t.memRead (s.elementAddr 0)).toNat = v / 100 ∧ (t.memRead (s.elementAddr 1)).toNat = v / 10 % 10 ∧
      (t.memRead (s.elementAddr 2)).toNat = v % 10 ∧
      Frame { cell := fun a => ∃ k < 3, a = effectiveAddr s.cfg (s.elementAddr k) } s t

/-- R109 LD [I], Vx: `V0 .. VX` inclusive to `I`, `I + 1`, …, each address wrapped on its own; `I` under its
toggle; every other byte is unchanged. -/
def Obligations.StoreRegistersToMemory : Prop :=
  ∀ (x : Reg) (s : State), CfgValid s.cfg →
    decode (wordXNN 0xF x 0x55) = .ok (.storeBlock x) ∧
    ∃ t, exec (.storeBlock x) s = .next t ∧
      (∀ r : Reg, r ≤ x → t.memRead (s.elementAddr r.val) = s.readV r) ∧
      t.i.toNat = (if s.cfg.memIncrementsI then (s.i.toNat + x.val + 1) % 65536 else s.i.toNat) ∧
      Frame { index := True, cell := fun a => ∃ k ≤ x.val, a = effectiveAddr s.cfg (s.elementAddr k) } s t

/-- R110 LD Vx, [I]: `V0 .. VX` inclusive from `I`, `I + 1`, …; `I` under its toggle; memory is unchanged. -/
def Obligations.LoadRegistersFromMemory : Prop :=
  ∀ (x : Reg) (s : State),
    decode (wordXNN 0xF x 0x65) = .ok (.loadBlock x) ∧
    ∃ t, exec (.loadBlock x) s = .next t ∧
      (∀ r : Reg, r ≤ x → t.readV r = s.memRead (s.elementAddr r.val)) ∧
      t.i.toNat = (if s.cfg.memIncrementsI then (s.i.toNat + x.val + 1) % 65536 else s.i.toNat) ∧
      Frame { reg := (· ≤ x), index := True } s t

/-- R32: a byte reads as it was last written, every other cell reads as before, and a read takes its address
modulo `MEM_SIZE` (R31). -/
def Obligations.ByteReadAfterWrite : Prop :=
  ∀ (s : State) (a b : Nat) (v : Byte),
    (s.memWrite a v).memRead b = (if b % s.cfg.memSize = a % s.cfg.memSize then v else s.memRead b) ∧
    s.memRead (a % s.cfg.memSize) = s.memRead a ∧
    Frame { cell := (· = a % s.cfg.memSize) } s (s.memWrite a v)

/-- R33: the fetch is big-endian, and its second address wraps like any other. -/
def Obligations.FetchIsBigEndian : Prop :=
  ∀ (s : State) (a : Nat),
    (s.fetch16 a).toNat =
      (s.memRead (a % s.cfg.memSize)).toNat * 256 + (s.memRead ((a + 1) % s.cfg.memSize)).toNat

/-- R41: a store of two registers is seen by the fetch of the very next instruction, with no fence. -/
def Obligations.StoreIsSeenByTheNextFetch : Prop :=
  ∀ s t : State, CfgValid s.cfg → s.pc = s.i → exec (.storeBlock 1) s = .next t →
    (t.fetch16 t.pc.toNat).toNat = (s.readV 0).toNat * 256 + (s.readV 1).toNat

/-! ## Display -/

/-- R115 CLS: every pixel 0 and `DIRTY` 1, whatever was there. -/
def Obligations.ClearDisplay : Prop :=
  decode 0x00E0 = .ok .cls ∧
  ∀ s : State, ∃ t, exec .cls s = .next t ∧ (∀ px py, t.pixRead px py = false) ∧ t.dirty = true ∧
    Frame { pixels := True, dirty := True } s t

/-- R116 DRW: every pixel ends toggled once for each set sprite bit that names it; `VF` is 1 exactly if some
toggle turned a set pixel off, that is a named pixel was set before, or is named more than once; `DIRTY` is
set exactly if some sprite bit is set; position registers are read before `VF` is written. -/
def Obligations.DrawTogglesTheSpritePixels : Prop :=
  ∀ (x y : Reg) (n : Nat) (s : State), CfgValid s.cfg →
    let hits := spriteHits s x y n
    (n < 16 → decode (wordXYN 0xD x y n) = .ok (.drw x y n)) ∧
    ∃ t, exec (.drw x y n) s = .next t ∧
      (∀ px py, px < s.cfg.displayWidth → py < s.cfg.displayHeight →
        t.pixRead px py = (s.pixRead px py ^^ decide (hits.count (px, py) % 2 = 1))) ∧
      ((∃ p ∈ hits, s.pixRead p.1 p.2 = true ∨ 1 < hits.count p) → t.readV 15 = 1) ∧
      (¬ (∃ p ∈ hits, s.pixRead p.1 p.2 = true ∨ 1 < hits.count p) → t.readV 15 = 0) ∧
      t.dirty = (s.dirty || decide (hits ≠ [])) ∧
      Frame { reg := (· = 15), pixels := True, dirty := True } s t

/-- QC8 §8 with the preconditions of 91_not_in_source.md N44-2: the same sprite drawn twice at the same place
restores every pixel; and if some sprite bit is set and no pixel is named twice by one draw, then on a display
where the named pixels were 0 the second draw leaves `VF = 1`.  `X` and `Y` are not 15, for then the first draw, which writes `VF`,
moves the place. -/
def Obligations.DrawingTwiceRestoresTheDisplay : Prop :=
  ∀ (x y : Reg) (n : Nat) (s t u : State), CfgValid s.cfg → x ≠ 15 → y ≠ 15 →
    exec (.drw x y n) s = .next t → exec (.drw x y n) t = .next u →
    (∀ px py, px < s.cfg.displayWidth → py < s.cfg.displayHeight → u.pixRead px py = s.pixRead px py) ∧
    (spriteHits s x y n ≠ [] → (spriteHits s x y n).Nodup →
      (∀ p ∈ spriteHits s x y n, s.pixRead p.1 p.2 = false) → t.readV 15 = 0 ∧ u.readV 15 = 1)

/-! ## Keys and timers -/

/-- R122 SKP Vx and R123 SKNP Vx: the low nibble names the key. -/
def Obligations.SkipOnKey : Prop :=
  ∀ (x : Reg) (s : State) (k : Key), k.val = (s.readV x).toNat % 16 →
    decode (wordXNN 0xE x 0x9E) = .ok (.skp x) ∧
    (∃ t, exec (.skp x) s = .next t ∧
      t.pc.toNat = (if s.readKey k then (s.pc.toNat + 2) % 65536 else s.pc.toNat) ∧ Frame { pc := True } s t) ∧
    decode (wordXNN 0xE x 0xA1) = .ok (.sknp x) ∧
    (∃ t, exec (.sknp x) s = .next t ∧
      t.pc.toNat = (if s.readKey k then s.pc.toNat else (s.pc.toNat + 2) % 65536) ∧ Frame { pc := True } s t)

/-- R124 LD Vx, K: the least pressed key, or `PC` back by 2 modulo 65536. -/
def Obligations.KeyWaitTakesTheLeastKey : Prop :=
  ∀ (x : Reg) (s : State), decode (wordXNN 0xF x 0x0A) = .ok (.ldVxK x) ∧
    (∀ k : Key, s.readKey k = true → (∀ j < k, s.readKey j = false) →
      ∃ t, exec (.ldVxK x) s = .next t ∧ (t.readV x).toNat = k.val ∧ Frame { reg := (· = x) } s t) ∧
    ((∀ k : Key, s.readKey k = false) →
      ∃ t, exec (.ldVxK x) s = .next t ∧ t.pc.toNat = (s.pc.toNat + 65534) % 65536 ∧ Frame { pc := True } s t)

/-- R124 (d), QC8 §8: a whole `Step` of a waiting `FX0A` leaves every piece of state exactly as it was, so it
re-executes identically. -/
def Obligations.WaitingStepChangesNothing : Prop :=
  ∀ (x : Reg) (s : State), s.engine = .ready → s.fetch16 s.pc.toNat = wordXNN 0xF x 0x0A →
    (∀ k : Key, s.readKey k = false) → step s = .next s

/-- R125 LD Vx, DT, R126 LD DT, Vx and R127 LD ST, Vx. -/
def Obligations.TimerTransfers : Prop :=
  ∀ (x : Reg) (s : State),
    decode (wordXNN 0xF x 0x07) = .ok (.ldVxDT x) ∧
    (∃ t, exec (.ldVxDT x) s = .next t ∧ t.readV x = s.dt ∧ Frame { reg := (· = x) } s t) ∧
    decode (wordXNN 0xF x 0x15) = .ok (.ldDTVx x) ∧
    (∃ t, exec (.ldDTVx x) s = .next t ∧ t.dt = s.readV x ∧ Frame { delay := True } s t) ∧
    decode (wordXNN 0xF x 0x18) = .ok (.ldSTVx x) ∧
    (∃ t, exec (.ldSTVx x) s = .next t ∧ t.st = s.readV x ∧ Frame { sound := True } s t)

/-- R142 TimerTick: each timer decreases by 1 if it is above 0 and else stays 0, independently. -/
def Obligations.TimersTickDownToZero : Prop :=
  ∀ s : State, s.timerTick.dt.toNat = s.dt.toNat - 1 ∧ s.timerTick.st.toNat = s.st.toNat - 1 ∧
    Frame { delay := True, sound := True } s s.timerTick

/-! ## Update -/

/-- R66: `max(1, floor(f * t / 1000))`, exactly, and 1 for `t < 0`; a `t` that is not finite is refused. -/
def Obligations.InstructionBudget : Prop :=
  (∀ f t : Rat, 1 ≤ instructionCount f t ∧ f * t / 1000 < instructionCount f t + 1 ∧
    (instructionCount f t = 1 ∨ (instructionCount f t : Rat) ≤ f * t / 1000) ∧
    (0 ≤ f → t < 0 → instructionCount f t = 1)) ∧
  ∀ (s : State) (writes : List (List KeyWrite)), s.engine = .ready →
    update .nonFinite writes s = .refused .nonFiniteElapsedTime

/-- R65, R66, R63: a fault-free `Update` clears `DIRTY`, runs its budget of steps, with the key writes that land
between them, and then ticks each timer once.  That the key writes come as a schedule is the model's choice,
log entry 6. -/
def Obligations.UpdateRunsItsBudgetThenTicks : Prop :=
  ∀ (s u : State) (t : Rat) (writes : List (List KeyWrite)), s.engine = .ready →
    StepsReady writes (instructionCount s.targetFreq t) { s with dirty := false } u →
    ∃ v, update (.finite t) writes s = .next v ∧ v.dt.toNat = u.dt.toNat - 1 ∧ v.st.toNat = u.st.toNat - 1 ∧
      Frame { delay := True, sound := True } u v

/-- R67: a fault ends the `Update` at once: the rest of the budget does not run and the timers do not tick.
That the key writes come as a schedule is the model's choice, log entry 6. -/
def Obligations.FaultEndsTheUpdate : Prop :=
  ∀ (s m u : State) (t : Rat) (writes : List (List KeyWrite)) (k : Nat), s.engine = .ready →
    k < instructionCount s.targetFreq t → StepsReady writes k { s with dirty := false } m →
    step (m.applyKeys ((writes.drop k).headD [])) = .next u → u.engine = .faulted →
    update (.finite t) writes s = .next u

/-! ## Reset and load -/

/-- R26, on the reset state: the values that the spec gives for a successful `Load`, with the font where R37
puts it.  The configuration is the usual one and the program is empty: the model's choice, log entry 2. -/
def Obligations.ResetLeavesTheStatedValues : Prop :=
  let s := State.reset
  (∀ r, s.readV r = 0) ∧ s.i = 0 ∧ s.pc.toNat = s.cfg.programOffset ∧ s.stack = [] ∧
  (∀ a < s.cfg.memSize, s.memRead a =
    if s.cfg.fontOffset ≤ a ∧ a < s.cfg.fontOffset + 80 then fontByte s.cfg.fontVariant (a - s.cfg.fontOffset)
    else 0) ∧
  (∀ px py, s.pixRead px py = false) ∧ s.dirty = false ∧ s.dt = 0 ∧ s.st = 0 ∧ (∀ k, s.readKey k = false) ∧
  s.targetFreq = s.cfg.targetFreqInit ∧ s.engine = .ready ∧ s.fault = none

/-- R152 with R26: what a `Load` whose ten checks hold leaves, whatever the state before it. -/
def Obligations.LoadResetsEverything : Prop :=
  ∀ (c : RawCfg) (program : List Byte) (s : State), ChecksHold 10 c program.length →
    ∃ t, hostOp (.load c program) s = .next t ∧
    (∀ r, t.readV r = 0) ∧ t.i = 0 ∧ (t.pc.toNat : Int) = c.programOffset ∧ t.stack = [] ∧
    (∀ k, (h : k < program.length) → t.memRead (t.cfg.programOffset + k) = program[k]) ∧
    (∀ k < 80, t.memRead (t.cfg.fontOffset + k) = fontByte t.cfg.fontVariant k) ∧
    (∀ a < t.cfg.memSize, ¬ (t.cfg.programOffset ≤ a ∧ a < t.cfg.programOffset + program.length) →
      ¬ (t.cfg.fontOffset ≤ a ∧ a < t.cfg.fontOffset + 80) → t.memRead a = 0) ∧
    (∀ px py, t.pixRead px py = false) ∧ t.dirty = false ∧ t.dt = 0 ∧ t.st = 0 ∧
    (∀ k, t.readKey k = false) ∧ c = rawOf t.cfg ∧ t.targetFreq = t.cfg.targetFreqInit ∧
    t.engine = .ready ∧ t.fault = none

/-- R153: the checks in their order; the first that fails is the fault that is reported. -/
def Obligations.LoadReportsTheFirstFailedCheck : Prop :=
  ∀ (c : RawCfg) (p : List Byte) (s : State),
    let n := p.length
    (¬ ChecksHold 1 c n → LoadRaises c p s (.invalidConfiguration .memSize)) ∧
    (ChecksHold 1 c n → ¬ ChecksHold 2 c n → LoadRaises c p s (.invalidConfiguration .programOffset)) ∧
    (ChecksHold 2 c n → ¬ ChecksHold 3 c n → LoadRaises c p s (.invalidConfiguration .fontOffset)) ∧
    (ChecksHold 3 c n → ¬ ChecksHold 4 c n → LoadRaises c p s (.invalidConfiguration .stackDepth)) ∧
    (ChecksHold 4 c n → ¬ 1 ≤ c.displayWidth → LoadRaises c p s (.invalidConfiguration .displayWidth)) ∧
    (ChecksHold 4 c n → 1 ≤ c.displayWidth → ¬ 1 ≤ c.displayHeight →
      LoadRaises c p s (.invalidConfiguration .displayHeight)) ∧
    (ChecksHold 5 c n → ¬ ChecksHold 6 c n → LoadRaises c p s (.invalidConfiguration .targetFreqInit)) ∧
    (ChecksHold 6 c n → ¬ ChecksHold 7 c n → LoadRaises c p s (.invalidConfiguration .fontVariant)) ∧
    (ChecksHold 7 c n → ¬ ChecksHold 8 c n → LoadRaises c p s (.invalidConfiguration .fontOffset)) ∧
    (ChecksHold 8 c n → ¬ ChecksHold 9 c n → LoadRaises c p s (.outOfMemory .font c.fontOffset 80 c.memSize)) ∧
    (ChecksHold 9 c n → ¬ ChecksHold 10 c n →
      LoadRaises c p s (.outOfMemory .program c.programOffset n c.memSize))

/-! ## Invariants and whole-machine rules -/

/-- The reset state meets the invariant. -/
def Obligations.ResetMeetsTheInvariant : Prop := State.reset.Inv

/-- Every step keeps the invariant: the configuration stays valid, memory and framebuffer keep their canonical
form, the stack its depth, the fault record stands exactly in `Faulted`.  The canonical forms and the bit
`loaded` are the model's own, log entries 1, 8 and 9. -/
def Obligations.StepKeepsTheInvariant : Prop :=
  ∀ s t : State, s.Inv → step s = .next t → t.Inv

/-- Every host operation keeps the invariant, but a `Load` that fails, which leaves a load fault. -/
def Obligations.HostOperationsKeepTheInvariant : Prop :=
  ∀ (op : HostOp) (s t : State), s.Inv → hostOp op s = .next t →
    t.Inv ∨ (t.engine = .faulted ∧ ∃ f, t.fault = some f ∧ (f.code = 4 ∨ f.code = 5))

/-- A successful `Load` establishes the invariant from any state whatever. -/
def Obligations.LoadEstablishesTheInvariant : Prop :=
  ∀ (c : RawCfg) (program : List Byte) (s : State), ChecksHold 10 c program.length →
    (load c program s).Inv

/-- R22, R23, R28, R21: no instruction writes the configuration, the target frequency, the key slots; no step
does.  The last clause is about `loaded`, a field of the model's own, log entry 9. -/
def Obligations.StepLeavesTheHostsStateAlone : Prop :=
  ∀ s t : State, step s = .next t →
    t.cfg = s.cfg ∧ t.targetFreq = s.targetFreq ∧ t.keys = s.keys ∧ t.loaded = s.loaded

/-- Which instructions can change each piece of state: memory, 20_memory.md R30; pixels and `DIRTY`, R17, R18;
the stack, R15; the timers, R19, R20; `I`, R13.  The last clause is about `draws`, a field of the model's own
and no state of the spec: that draws are numbered by a counter is the model's choice, log entry 3. -/
def Obligations.OnlyTheNamedInstructionsWrite : Prop :=
  ∀ (i : Instr) (s t : State), exec i s = .next t →
    ((∃ a, t.memRead a ≠ s.memRead a) → ∃ x, i = .ldB x ∨ i = .storeBlock x) ∧
    ((∃ px py, t.pixRead px py ≠ s.pixRead px py) → i = .cls ∨ ∃ x y n, i = .drw x y n) ∧
    (t.dirty ≠ s.dirty → i = .cls ∨ ∃ x y n, i = .drw x y n) ∧
    (t.stack ≠ s.stack → i = .ret ∨ ∃ nnn, i = .call nnn) ∧
    (t.dt ≠ s.dt → ∃ x, i = .ldDTVx x) ∧
    (t.st ≠ s.st → ∃ x, i = .ldSTVx x) ∧
    (t.i ≠ s.i → (∃ nnn, i = .ldI nnn) ∨ (∃ x, i = .addI x ∨ i = .ldF x) ∨
      (s.cfg.memIncrementsI = true ∧ ∃ x, i = .storeBlock x ∨ i = .loadBlock x)) ∧
    (t.draws ≠ s.draws → ∃ x nn, i = .rnd x nn)

/-- R12: the instructions that write `VF` as a side effect are exactly those it lists; another changes it only
by naming it as its destination (`FF65` loads it as one of `V0 .. VF`). -/
def Obligations.FlagIsWrittenOnlyByItsWriters : Prop :=
  ∀ (i : Instr) (s t : State), exec i s = .next t → t.readV 15 ≠ s.readV 15 →
    writesFlag s.cfg i = true ∨ namedDest i = some 15 ∨ i = .loadBlock 15

/-- R14: `PC` is changed, beyond the advance by `Step`, only by jump, call, return, the skips and the key
wait; every other instruction goes on at `a + 2`. -/
def Obligations.OtherInstructionsGoOnInSequence : Prop :=
  ∀ (i : Instr) (s t : State), exec i s = .next t → t.pc ≠ s.pc →
    i = .ret ∨ (∃ nnn, i = .jp nnn ∨ i = .call nnn ∨ i = .jpV0 nnn) ∨
    (∃ x nn, i = .seByte x nn ∨ i = .sneByte x nn) ∨ (∃ x y, i = .seReg x y ∨ i = .sneReg x y) ∨
    ∃ x, i = .skp x ∨ i = .sknp x ∨ i = .ldVxK x

/-- R15, QC8 §8: pushes that do not exceed capacity come back in reverse order, and leave the stack as it
was. -/
def Obligations.StackIsLastInFirstOut : Prop :=
  ∀ (vs : List Word) (s : State), s.stack.length + vs.length ≤ s.cfg.stackDepth →
    ∃ t, vs.foldlM (fun st a => st.push a) s = some t ∧
      vs.reverse.foldlM (fun st a => (st.pop).bind fun p => if p.1 = a then some p.2 else none) t = some s

/-! ## Host operations -/

/-- R70 SetKey and R73: legal in every engine state once a `Load` has succeeded, it writes that slot and
nothing else; before, it is refused (log entries 9 and 14: the model's reading of "legal when"). -/
def Obligations.SetKeyWritesOneSlot : Prop :=
  ∀ (k : Key) (b : Bool) (s : State),
    (s.loaded = true → ∃ t, setKey k b s = .next t ∧
      (∀ j, t.readKey j = if j = k then b else s.readKey j) ∧ Frame { keys := True } s t) ∧
    (s.loaded = false → setKey k b s = .refused .notLoaded)

/-- R23, R73 SetTargetFreq: `Ready` and a finite number `>= 0`; else refused (log entry 14: the model's reading
of "legal when"). -/
def Obligations.SetTargetFreqWhenReady : Prop :=
  ∀ (f : Rat) (s : State),
    (s.engine = .ready → 0 ≤ f → ∃ t, setTargetFreq (.finite f) s = .next t ∧ t.targetFreq = f ∧
      Frame { freq := True } s t) ∧
    (s.engine ≠ .ready ∨ f < 0 → ∃ r, setTargetFreq (.finite f) s = .refused r)

/-- R138: while `Faulted`, no operation but `Load` changes `ENGINE_STATE` or `FAULT`. -/
def Obligations.FaultIsLeftOnlyByLoad : Prop :=
  ∀ (op : HostOp) (s t : State), s.engine = .faulted → hostOp op s = .next t →
    (∃ c program, op = .load c program) ∨ (t.engine = .faulted ∧ t.fault = s.fault)

/-- R71: the host reads any pixel in range and the dirty flag of a loaded core, and `ENGINE_STATE` and `FAULT`
of any.  Which reads are legal is the model's reading, log entries 9 and 14. -/
def Obligations.HostReadsPixelsFlagAndFault : Prop :=
  ∀ (s : State),
    (s.loaded = true → hostRead .dirty s = .ok (.bit s.dirty) ∧
      ∀ px py, px < s.cfg.displayWidth → py < s.cfg.displayHeight →
        hostRead (.pixel px py) s = .ok (.bit (s.pixRead px py))) ∧
    hostRead .engineState s = .ok (.engine s.engine) ∧
    (s.engine = .faulted → hostRead .fault s = .ok (.faultRecord s.fault))
end

