-- ==== Sys2Proof/Laws/Cells.lean ====
section
/-! SUPPORT. Laws of the sparse cells under memory and framebuffer: read after write, and the canonical
form is kept. -/

namespace Sys2Proof.Machine.Cells

variable {α : Type}

theorem get_erase (d : Nat → α) (m : List (Nat × α)) (k j : Nat) :
    get d (erase k m) j = if j = k then d k else get d m j := by
  induction m with
  | nil => by_cases h : j = k <;> simp [erase, get, h]
  | cons c m ih =>
    obtain ⟨a, b⟩ := c
    by_cases hk : k = a
    · subst hk
      rw [erase, if_pos rfl, ih]
      by_cases hj : j = k <;> simp [get, hj]
    · by_cases hj : j = a
      · subst hj
        simp [erase, get, hk, Ne.symm hk]
      · simp [erase, get, hk, hj, ih]

theorem get_insert (d : Nat → α) (m : List (Nat × α)) (k j : Nat) (b : α) :
    get d (insert k b m) j = if j = k then b else get d m j := by
  induction m with
  | nil => simp [insert, get]
  | cons c m ih =>
    obtain ⟨a, b'⟩ := c
    by_cases hlt : k < a
    · simp [insert, get, hlt]
    · by_cases hk : k = a
      · subst hk
        by_cases hj : j = k <;> simp [insert, get, hj]
      · by_cases hj : j = a
        · subst hj
          simp [insert, get, hlt, hk, Ne.symm hk]
        · simp [insert, get, hlt, hk, hj, ih]

/-- Read after write: the value written under the key written, the old value elsewhere. -/
theorem get_set [DecidableEq α] (d : Nat → α) (m : List (Nat × α)) (k j : Nat) (b : α) :
    get d (set d m k b) j = if j = k then b else get d m j := by
  unfold set
  split
  · next h => rw [get_erase, h]
  · rw [get_insert]

theorem canonical_mono [DecidableEq α] (d : Nat → α) (bound lo lo' : Nat) (m : List (Nat × α))
    (hlo : lo' ≤ lo) (h : canonical d bound lo m = true) : canonical d bound lo' m = true := by
  cases m with
  | nil => rfl
  | cons c m =>
    obtain ⟨a, b⟩ := c
    simp only [canonical, Bool.and_eq_true, decide_eq_true_eq] at h ⊢
    exact ⟨⟨⟨hlo.trans h.1.1.1, h.1.1.2⟩, h.1.2⟩, h.2⟩

theorem canonical_erase [DecidableEq α] (d : Nat → α) (bound lo k : Nat) (m : List (Nat × α))
    (h : canonical d bound lo m = true) : canonical d bound lo (erase k m) = true := by
  induction m generalizing lo with
  | nil => rfl
  | cons c m ih =>
    obtain ⟨a, b⟩ := c
    simp only [canonical, Bool.and_eq_true, decide_eq_true_eq] at h
    by_cases hk : k = a
    · rw [erase, if_pos hk]
      exact canonical_mono d bound (a + 1) lo _ (by omega) (ih (a + 1) h.2)
    · rw [erase, if_neg hk]
      simp only [canonical, Bool.and_eq_true, decide_eq_true_eq]
      exact ⟨h.1, ih (a + 1) h.2⟩

theorem canonical_insert [DecidableEq α] (d : Nat → α) (bound lo k : Nat) (b : α) (m : List (Nat × α))
    (hlo : lo ≤ k) (hk : k < bound) (hb : b ≠ d k) (h : canonical d bound lo m = true) :
    canonical d bound lo (insert k b m) = true := by
  induction m generalizing lo with
  | nil => simp [insert, canonical, hlo, hk, hb]
  | cons c m ih =>
    obtain ⟨a, b'⟩ := c
    simp only [canonical, Bool.and_eq_true, decide_eq_true_eq] at h
    by_cases hlt : k < a
    · rw [insert, if_pos hlt]
      simp only [canonical, Bool.and_eq_true, decide_eq_true_eq]
      exact ⟨⟨⟨hlo, hk⟩, hb⟩, ⟨⟨by omega, h.1.1.2⟩, h.1.2⟩, h.2⟩
    · by_cases hka : k = a
      · rw [insert, if_neg hlt, if_pos hka]
        subst hka
        simp only [canonical, Bool.and_eq_true, decide_eq_true_eq]
        exact ⟨⟨⟨hlo, hk⟩, hb⟩, h.2⟩
      · rw [insert, if_neg hlt, if_neg hka]
        simp only [canonical, Bool.and_eq_true, decide_eq_true_eq]
        exact ⟨h.1, ih (a + 1) (by omega) h.2⟩

/-- A write under a key below the bound keeps the canonical form. -/
theorem canonical_set [DecidableEq α] (d : Nat → α) (bound k : Nat) (b : α) (m : List (Nat × α))
    (hk : k < bound) (h : canonical d bound 0 m = true) : canonical d bound 0 (set d m k b) = true := by
  unfold set
  split
  · exact canonical_erase d bound 0 k m h
  · next hb => exact canonical_insert d bound 0 k b m (Nat.zero_le k) hk hb h

/-- An unlisted key below the first listed one reads as its default. -/
theorem get_of_lt [DecidableEq α] (d : Nat → α) (bound lo k : Nat) (m : List (Nat × α)) (hk : k < lo)
    (h : canonical d bound lo m = true) : get d m k = d k := by
  induction m generalizing lo with
  | nil => rfl
  | cons c m ih =>
    obtain ⟨a, b⟩ := c
    simp only [canonical, Bool.and_eq_true, decide_eq_true_eq] at h
    rw [get, if_neg (by omega)]
    exact ih (a + 1) (by omega) h.2

/-- Canonical cells that read alike are equal data. -/
theorem ext_of_canonical [DecidableEq α] (d : Nat → α) (bound lo : Nat) (m m' : List (Nat × α))
    (h : canonical d bound lo m = true) (h' : canonical d bound lo m' = true)
    (hget : ∀ k, get d m k = get d m' k) : m = m' := by
  induction m generalizing lo m' with
  | nil =>
    cases m' with
    | nil => rfl
    | cons c m' =>
      obtain ⟨a, b⟩ := c
      simp only [canonical, Bool.and_eq_true, decide_eq_true_eq] at h'
      exact absurd (by simpa [get] using (hget a).symm) h'.1.2
  | cons c m ih =>
    obtain ⟨a, b⟩ := c
    have hc := h
    simp only [canonical, Bool.and_eq_true, decide_eq_true_eq] at h
    cases m' with
    | nil => exact absurd (by simpa [get] using hget a) h.1.2
    | cons c' m' =>
      obtain ⟨a', b'⟩ := c'
      have hc' := h'
      simp only [canonical, Bool.and_eq_true, decide_eq_true_eq] at h'
      have haa : a = a' := by
        rcases Nat.lt_trichotomy a a' with hlt | heq | hgt
        · have hg := hget a
          rw [get, if_pos rfl, get, if_neg (by omega), get_of_lt d bound (a' + 1) a m' (by omega) h'.2] at hg
          exact absurd hg h.1.2
        · exact heq
        · have hg := hget a'
          rw [get, if_neg (by omega), get_of_lt d bound (a + 1) a' m (by omega) h.2, get, if_pos rfl] at hg
          exact absurd hg.symm h'.1.2
      subst haa
      have hb : b = b' := by simpa [get] using hget a
      subst hb
      have hm : m = m' := by
        refine ih (a + 1) m' h.2 h'.2 fun k => ?_
        by_cases hk : k = a
        · rw [hk, get_of_lt d bound (a + 1) a m (by omega) h.2, get_of_lt d bound (a + 1) a m' (by omega) h'.2]
        · simpa [get, hk] using hget k
      rw [hm]

end Sys2Proof.Machine.Cells
end

