-- ==== Sys2Proof/Laws/Decode.lean ====
section
/-! SUPPORT. The words of the six formats as numbers, and the fields the decoder reads from them. -/

namespace Sys2Proof

theorem append_toNat {m n : Nat} (a : BitVec m) (b : BitVec n) :
    (a ++ b).toNat = a.toNat * 2 ^ n + b.toNat := by
  rw [BitVec.toNat_append, ← Nat.shiftLeft_add_eq_or_of_lt b.isLt, Nat.shiftLeft_eq]

theorem packNNN_toNat (op : BitVec 4) (nnn : Addr12) :
    (packNNN op nnn).toNat = op.toNat * 4096 + nnn.toNat :=
  append_toNat op nnn

theorem regBits_toNat (x : Reg) : (regBits x).toNat = x.val := by
  simp [regBits]

theorem packXNN_toNat (op : BitVec 4) (x : Reg) (nn : Byte) :
    (packXNN op x nn).toNat = op.toNat * 4096 + x.val * 256 + nn.toNat := by
  unfold packXNN
  rw [append_toNat, append_toNat, regBits_toNat]
  omega

theorem packXYN_toNat (op : BitVec 4) (x y : Reg) (n : BitVec 4) :
    (packXYN op x y n).toNat = op.toNat * 4096 + x.val * 256 + y.val * 16 + n.toNat := by
  unfold packXYN
  rw [append_toNat, append_toNat, append_toNat, regBits_toNat, regBits_toNat]
  omega

/-! ### Each field of a word, as a number (R47) -/

theorem fields_op_val (w : Word) : (fields w).op.val = w.toNat / 4096 % 16 := by
  simp [fields, Nat.shiftRight_eq_div_pow]

theorem fields_x_val (w : Word) : (fields w).x.val = w.toNat / 256 % 16 := by
  simp [fields, Nat.shiftRight_eq_div_pow]

theorem fields_y_val (w : Word) : (fields w).y.val = w.toNat / 16 % 16 := by
  simp [fields, Nat.shiftRight_eq_div_pow]

theorem fields_n_val (w : Word) : (fields w).n.val = w.toNat % 16 := by
  simp [fields]

theorem fields_nn_toNat (w : Word) : (fields w).nn.toNat = w.toNat % 256 := by
  simp [fields]

theorem fields_nnn_toNat (w : Word) : (fields w).nnn.toNat = w.toNat % 4096 := by
  simp [fields]

/-! ### The fields of a packed word -/

theorem fields_packNNN (op : BitVec 4) (nnn : Addr12) :
    (fields (packNNN op nnn)).op = op.toFin ∧ (fields (packNNN op nnn)).nnn = nnn := by
  have hw := packNNN_toNat op nnn
  have ho := fields_op_val (packNNN op nnn)
  have hn := fields_nnn_toNat (packNNN op nnn)
  have := op.isLt
  have := nnn.isLt
  refine ⟨Fin.ext ?_, BitVec.eq_of_toNat_eq ?_⟩
  · change _ = op.toNat; rw [ho, hw]; omega
  · rw [hn, hw]; omega

theorem fields_packXNN (op : BitVec 4) (x : Reg) (nn : Byte) :
    (fields (packXNN op x nn)).op = op.toFin ∧ (fields (packXNN op x nn)).x = x ∧
      (fields (packXNN op x nn)).nn = nn := by
  have hw := packXNN_toNat op x nn
  have ho := fields_op_val (packXNN op x nn)
  have hx := fields_x_val (packXNN op x nn)
  have hn := fields_nn_toNat (packXNN op x nn)
  have := op.isLt
  have := x.isLt
  have := nn.isLt
  refine ⟨Fin.ext ?_, Fin.ext ?_, BitVec.eq_of_toNat_eq ?_⟩
  · change _ = op.toNat; rw [ho, hw]; omega
  · rw [hx, hw]; omega
  · rw [hn, hw]; omega

theorem fields_packXYN (op : BitVec 4) (x y : Reg) (n : BitVec 4) :
    (fields (packXYN op x y n)).op = op.toFin ∧ (fields (packXYN op x y n)).x = x ∧
      (fields (packXYN op x y n)).y = y ∧ (fields (packXYN op x y n)).n = n.toFin := by
  have hw := packXYN_toNat op x y n
  have ho := fields_op_val (packXYN op x y n)
  have hx := fields_x_val (packXYN op x y n)
  have hy := fields_y_val (packXYN op x y n)
  have hn := fields_n_val (packXYN op x y n)
  have := op.isLt
  have := x.isLt
  have := y.isLt
  have := n.isLt
  refine ⟨Fin.ext ?_, Fin.ext ?_, Fin.ext ?_, Fin.ext ?_⟩
  · change _ = op.toNat; rw [ho, hw]; omega
  · rw [hx, hw]; omega
  · rw [hy, hw]; omega
  · change _ = n.toNat; rw [hn, hw]; omega

end Sys2Proof
end

