-- ==== Sys2Proof/Laws/State.lean ====
section
/-! SUPPORT. One lemma per field per update of the state, true by rfl, and the reads of registers, memory,
pixels and keys after each update. -/

namespace Sys2Proof.Machine.State

variable (s : State)

/-! ### writeV -/

@[simp] theorem writeV_v (x : Reg) (b : Byte) : (s.writeV x b).v = s.v.set x b := rfl
@[simp] theorem writeV_i (x : Reg) (b : Byte) : (s.writeV x b).i = s.i := rfl
@[simp] theorem writeV_pc (x : Reg) (b : Byte) : (s.writeV x b).pc = s.pc := rfl
@[simp] theorem writeV_stack (x : Reg) (b : Byte) : (s.writeV x b).stack = s.stack := rfl
@[simp] theorem writeV_mem (x : Reg) (b : Byte) : (s.writeV x b).mem = s.mem := rfl
@[simp] theorem writeV_fb (x : Reg) (b : Byte) : (s.writeV x b).fb = s.fb := rfl
@[simp] theorem writeV_dirty (x : Reg) (b : Byte) : (s.writeV x b).dirty = s.dirty := rfl
@[simp] theorem writeV_dt (x : Reg) (b : Byte) : (s.writeV x b).dt = s.dt := rfl
@[simp] theorem writeV_st (x : Reg) (b : Byte) : (s.writeV x b).st = s.st := rfl
@[simp] theorem writeV_keys (x : Reg) (b : Byte) : (s.writeV x b).keys = s.keys := rfl
@[simp] theorem writeV_cfg (x : Reg) (b : Byte) : (s.writeV x b).cfg = s.cfg := rfl
@[simp] theorem writeV_targetFreq (x : Reg) (b : Byte) : (s.writeV x b).targetFreq = s.targetFreq := rfl
@[simp] theorem writeV_engine (x : Reg) (b : Byte) : (s.writeV x b).engine = s.engine := rfl
@[simp] theorem writeV_fault (x : Reg) (b : Byte) : (s.writeV x b).fault = s.fault := rfl
@[simp] theorem writeV_loaded (x : Reg) (b : Byte) : (s.writeV x b).loaded = s.loaded := rfl
@[simp] theorem writeV_draws (x : Reg) (b : Byte) : (s.writeV x b).draws = s.draws := rfl
@[simp] theorem memRead_writeV (x : Reg) (b : Byte) (m : Nat) : (s.writeV x b).memRead m = s.memRead m := rfl
@[simp] theorem pixRead_writeV (x : Reg) (b : Byte) (px py : Nat) : (s.writeV x b).pixRead px py = s.pixRead px py := rfl
@[simp] theorem readKey_writeV (x : Reg) (b : Byte) (j : Key) : (s.writeV x b).readKey j = s.readKey j := rfl

/-! ### writeVF -/

@[simp] theorem writeVF_v (b : Byte) : (s.writeVF b).v = s.v.set flagReg b := rfl
@[simp] theorem writeVF_i (b : Byte) : (s.writeVF b).i = s.i := rfl
@[simp] theorem writeVF_pc (b : Byte) : (s.writeVF b).pc = s.pc := rfl
@[simp] theorem writeVF_stack (b : Byte) : (s.writeVF b).stack = s.stack := rfl
@[simp] theorem writeVF_mem (b : Byte) : (s.writeVF b).mem = s.mem := rfl
@[simp] theorem writeVF_fb (b : Byte) : (s.writeVF b).fb = s.fb := rfl
@[simp] theorem writeVF_dirty (b : Byte) : (s.writeVF b).dirty = s.dirty := rfl
@[simp] theorem writeVF_dt (b : Byte) : (s.writeVF b).dt = s.dt := rfl
@[simp] theorem writeVF_st (b : Byte) : (s.writeVF b).st = s.st := rfl
@[simp] theorem writeVF_keys (b : Byte) : (s.writeVF b).keys = s.keys := rfl
@[simp] theorem writeVF_cfg (b : Byte) : (s.writeVF b).cfg = s.cfg := rfl
@[simp] theorem writeVF_targetFreq (b : Byte) : (s.writeVF b).targetFreq = s.targetFreq := rfl
@[simp] theorem writeVF_engine (b : Byte) : (s.writeVF b).engine = s.engine := rfl
@[simp] theorem writeVF_fault (b : Byte) : (s.writeVF b).fault = s.fault := rfl
@[simp] theorem writeVF_loaded (b : Byte) : (s.writeVF b).loaded = s.loaded := rfl
@[simp] theorem writeVF_draws (b : Byte) : (s.writeVF b).draws = s.draws := rfl
@[simp] theorem memRead_writeVF (b : Byte) (m : Nat) : (s.writeVF b).memRead m = s.memRead m := rfl
@[simp] theorem pixRead_writeVF (b : Byte) (px py : Nat) : (s.writeVF b).pixRead px py = s.pixRead px py := rfl
@[simp] theorem readKey_writeVF (b : Byte) (j : Key) : (s.writeVF b).readKey j = s.readKey j := rfl

/-! ### setI -/

@[simp] theorem setI_v (a : Word) : (s.setI a).v = s.v := rfl
@[simp] theorem setI_i (a : Word) : (s.setI a).i = a := rfl
@[simp] theorem setI_pc (a : Word) : (s.setI a).pc = s.pc := rfl
@[simp] theorem setI_stack (a : Word) : (s.setI a).stack = s.stack := rfl
@[simp] theorem setI_mem (a : Word) : (s.setI a).mem = s.mem := rfl
@[simp] theorem setI_fb (a : Word) : (s.setI a).fb = s.fb := rfl
@[simp] theorem setI_dirty (a : Word) : (s.setI a).dirty = s.dirty := rfl
@[simp] theorem setI_dt (a : Word) : (s.setI a).dt = s.dt := rfl
@[simp] theorem setI_st (a : Word) : (s.setI a).st = s.st := rfl
@[simp] theorem setI_keys (a : Word) : (s.setI a).keys = s.keys := rfl
@[simp] theorem setI_cfg (a : Word) : (s.setI a).cfg = s.cfg := rfl
@[simp] theorem setI_targetFreq (a : Word) : (s.setI a).targetFreq = s.targetFreq := rfl
@[simp] theorem setI_engine (a : Word) : (s.setI a).engine = s.engine := rfl
@[simp] theorem setI_fault (a : Word) : (s.setI a).fault = s.fault := rfl
@[simp] theorem setI_loaded (a : Word) : (s.setI a).loaded = s.loaded := rfl
@[simp] theorem setI_draws (a : Word) : (s.setI a).draws = s.draws := rfl
@[simp] theorem readV_setI (a : Word) (r : Reg) : (s.setI a).readV r = s.readV r := rfl
@[simp] theorem memRead_setI (a : Word) (m : Nat) : (s.setI a).memRead m = s.memRead m := rfl
@[simp] theorem pixRead_setI (a : Word) (px py : Nat) : (s.setI a).pixRead px py = s.pixRead px py := rfl
@[simp] theorem readKey_setI (a : Word) (j : Key) : (s.setI a).readKey j = s.readKey j := rfl

/-! ### setPC -/

@[simp] theorem setPC_v (a : Word) : (s.setPC a).v = s.v := rfl
@[simp] theorem setPC_i (a : Word) : (s.setPC a).i = s.i := rfl
@[simp] theorem setPC_pc (a : Word) : (s.setPC a).pc = a := rfl
@[simp] theorem setPC_stack (a : Word) : (s.setPC a).stack = s.stack := rfl
@[simp] theorem setPC_mem (a : Word) : (s.setPC a).mem = s.mem := rfl
@[simp] theorem setPC_fb (a : Word) : (s.setPC a).fb = s.fb := rfl
@[simp] theorem setPC_dirty (a : Word) : (s.setPC a).dirty = s.dirty := rfl
@[simp] theorem setPC_dt (a : Word) : (s.setPC a).dt = s.dt := rfl
@[simp] theorem setPC_st (a : Word) : (s.setPC a).st = s.st := rfl
@[simp] theorem setPC_keys (a : Word) : (s.setPC a).keys = s.keys := rfl
@[simp] theorem setPC_cfg (a : Word) : (s.setPC a).cfg = s.cfg := rfl
@[simp] theorem setPC_targetFreq (a : Word) : (s.setPC a).targetFreq = s.targetFreq := rfl
@[simp] theorem setPC_engine (a : Word) : (s.setPC a).engine = s.engine := rfl
@[simp] theorem setPC_fault (a : Word) : (s.setPC a).fault = s.fault := rfl
@[simp] theorem setPC_loaded (a : Word) : (s.setPC a).loaded = s.loaded := rfl
@[simp] theorem setPC_draws (a : Word) : (s.setPC a).draws = s.draws := rfl
@[simp] theorem readV_setPC (a : Word) (r : Reg) : (s.setPC a).readV r = s.readV r := rfl
@[simp] theorem memRead_setPC (a : Word) (m : Nat) : (s.setPC a).memRead m = s.memRead m := rfl
@[simp] theorem pixRead_setPC (a : Word) (px py : Nat) : (s.setPC a).pixRead px py = s.pixRead px py := rfl
@[simp] theorem readKey_setPC (a : Word) (j : Key) : (s.setPC a).readKey j = s.readKey j := rfl

/-! ### setDT -/

@[simp] theorem setDT_v (b : Byte) : (s.setDT b).v = s.v := rfl
@[simp] theorem setDT_i (b : Byte) : (s.setDT b).i = s.i := rfl
@[simp] theorem setDT_pc (b : Byte) : (s.setDT b).pc = s.pc := rfl
@[simp] theorem setDT_stack (b : Byte) : (s.setDT b).stack = s.stack := rfl
@[simp] theorem setDT_mem (b : Byte) : (s.setDT b).mem = s.mem := rfl
@[simp] theorem setDT_fb (b : Byte) : (s.setDT b).fb = s.fb := rfl
@[simp] theorem setDT_dirty (b : Byte) : (s.setDT b).dirty = s.dirty := rfl
@[simp] theorem setDT_dt (b : Byte) : (s.setDT b).dt = b := rfl
@[simp] theorem setDT_st (b : Byte) : (s.setDT b).st = s.st := rfl
@[simp] theorem setDT_keys (b : Byte) : (s.setDT b).keys = s.keys := rfl
@[simp] theorem setDT_cfg (b : Byte) : (s.setDT b).cfg = s.cfg := rfl
@[simp] theorem setDT_targetFreq (b : Byte) : (s.setDT b).targetFreq = s.targetFreq := rfl
@[simp] theorem setDT_engine (b : Byte) : (s.setDT b).engine = s.engine := rfl
@[simp] theorem setDT_fault (b : Byte) : (s.setDT b).fault = s.fault := rfl
@[simp] theorem setDT_loaded (b : Byte) : (s.setDT b).loaded = s.loaded := rfl
@[simp] theorem setDT_draws (b : Byte) : (s.setDT b).draws = s.draws := rfl
@[simp] theorem readV_setDT (b : Byte) (r : Reg) : (s.setDT b).readV r = s.readV r := rfl
@[simp] theorem memRead_setDT (b : Byte) (m : Nat) : (s.setDT b).memRead m = s.memRead m := rfl
@[simp] theorem pixRead_setDT (b : Byte) (px py : Nat) : (s.setDT b).pixRead px py = s.pixRead px py := rfl
@[simp] theorem readKey_setDT (b : Byte) (j : Key) : (s.setDT b).readKey j = s.readKey j := rfl

/-! ### setST -/

@[simp] theorem setST_v (b : Byte) : (s.setST b).v = s.v := rfl
@[simp] theorem setST_i (b : Byte) : (s.setST b).i = s.i := rfl
@[simp] theorem setST_pc (b : Byte) : (s.setST b).pc = s.pc := rfl
@[simp] theorem setST_stack (b : Byte) : (s.setST b).stack = s.stack := rfl
@[simp] theorem setST_mem (b : Byte) : (s.setST b).mem = s.mem := rfl
@[simp] theorem setST_fb (b : Byte) : (s.setST b).fb = s.fb := rfl
@[simp] theorem setST_dirty (b : Byte) : (s.setST b).dirty = s.dirty := rfl
@[simp] theorem setST_dt (b : Byte) : (s.setST b).dt = s.dt := rfl
@[simp] theorem setST_st (b : Byte) : (s.setST b).st = b := rfl
@[simp] theorem setST_keys (b : Byte) : (s.setST b).keys = s.keys := rfl
@[simp] theorem setST_cfg (b : Byte) : (s.setST b).cfg = s.cfg := rfl
@[simp] theorem setST_targetFreq (b : Byte) : (s.setST b).targetFreq = s.targetFreq := rfl
@[simp] theorem setST_engine (b : Byte) : (s.setST b).engine = s.engine := rfl
@[simp] theorem setST_fault (b : Byte) : (s.setST b).fault = s.fault := rfl
@[simp] theorem setST_loaded (b : Byte) : (s.setST b).loaded = s.loaded := rfl
@[simp] theorem setST_draws (b : Byte) : (s.setST b).draws = s.draws := rfl
@[simp] theorem readV_setST (b : Byte) (r : Reg) : (s.setST b).readV r = s.readV r := rfl
@[simp] theorem memRead_setST (b : Byte) (m : Nat) : (s.setST b).memRead m = s.memRead m := rfl
@[simp] theorem pixRead_setST (b : Byte) (px py : Nat) : (s.setST b).pixRead px py = s.pixRead px py := rfl
@[simp] theorem readKey_setST (b : Byte) (j : Key) : (s.setST b).readKey j = s.readKey j := rfl

/-! ### setDirty -/

@[simp] theorem setDirty_v (b : Bool) : (s.setDirty b).v = s.v := rfl
@[simp] theorem setDirty_i (b : Bool) : (s.setDirty b).i = s.i := rfl
@[simp] theorem setDirty_pc (b : Bool) : (s.setDirty b).pc = s.pc := rfl
@[simp] theorem setDirty_stack (b : Bool) : (s.setDirty b).stack = s.stack := rfl
@[simp] theorem setDirty_mem (b : Bool) : (s.setDirty b).mem = s.mem := rfl
@[simp] theorem setDirty_fb (b : Bool) : (s.setDirty b).fb = s.fb := rfl
@[simp] theorem setDirty_dirty (b : Bool) : (s.setDirty b).dirty = b := rfl
@[simp] theorem setDirty_dt (b : Bool) : (s.setDirty b).dt = s.dt := rfl
@[simp] theorem setDirty_st (b : Bool) : (s.setDirty b).st = s.st := rfl
@[simp] theorem setDirty_keys (b : Bool) : (s.setDirty b).keys = s.keys := rfl
@[simp] theorem setDirty_cfg (b : Bool) : (s.setDirty b).cfg = s.cfg := rfl
@[simp] theorem setDirty_targetFreq (b : Bool) : (s.setDirty b).targetFreq = s.targetFreq := rfl
@[simp] theorem setDirty_engine (b : Bool) : (s.setDirty b).engine = s.engine := rfl
@[simp] theorem setDirty_fault (b : Bool) : (s.setDirty b).fault = s.fault := rfl
@[simp] theorem setDirty_loaded (b : Bool) : (s.setDirty b).loaded = s.loaded := rfl
@[simp] theorem setDirty_draws (b : Bool) : (s.setDirty b).draws = s.draws := rfl
@[simp] theorem readV_setDirty (b : Bool) (r : Reg) : (s.setDirty b).readV r = s.readV r := rfl
@[simp] theorem memRead_setDirty (b : Bool) (m : Nat) : (s.setDirty b).memRead m = s.memRead m := rfl
@[simp] theorem pixRead_setDirty (b : Bool) (px py : Nat) : (s.setDirty b).pixRead px py = s.pixRead px py := rfl
@[simp] theorem readKey_setDirty (b : Bool) (j : Key) : (s.setDirty b).readKey j = s.readKey j := rfl

/-! ### setKeySlot -/

@[simp] theorem setKeySlot_v (k : Key) (b : Bool) : (s.setKeySlot k b).v = s.v := rfl
@[simp] theorem setKeySlot_i (k : Key) (b : Bool) : (s.setKeySlot k b).i = s.i := rfl
@[simp] theorem setKeySlot_pc (k : Key) (b : Bool) : (s.setKeySlot k b).pc = s.pc := rfl
@[simp] theorem setKeySlot_stack (k : Key) (b : Bool) : (s.setKeySlot k b).stack = s.stack := rfl
@[simp] theorem setKeySlot_mem (k : Key) (b : Bool) : (s.setKeySlot k b).mem = s.mem := rfl
@[simp] theorem setKeySlot_fb (k : Key) (b : Bool) : (s.setKeySlot k b).fb = s.fb := rfl
@[simp] theorem setKeySlot_dirty (k : Key) (b : Bool) : (s.setKeySlot k b).dirty = s.dirty := rfl
@[simp] theorem setKeySlot_dt (k : Key) (b : Bool) : (s.setKeySlot k b).dt = s.dt := rfl
@[simp] theorem setKeySlot_st (k : Key) (b : Bool) : (s.setKeySlot k b).st = s.st := rfl
@[simp] theorem setKeySlot_keys (k : Key) (b : Bool) : (s.setKeySlot k b).keys = s.keys.set k b := rfl
@[simp] theorem setKeySlot_cfg (k : Key) (b : Bool) : (s.setKeySlot k b).cfg = s.cfg := rfl
@[simp] theorem setKeySlot_targetFreq (k : Key) (b : Bool) : (s.setKeySlot k b).targetFreq = s.targetFreq := rfl
@[simp] theorem setKeySlot_engine (k : Key) (b : Bool) : (s.setKeySlot k b).engine = s.engine := rfl
@[simp] theorem setKeySlot_fault (k : Key) (b : Bool) : (s.setKeySlot k b).fault = s.fault := rfl
@[simp] theorem setKeySlot_loaded (k : Key) (b : Bool) : (s.setKeySlot k b).loaded = s.loaded := rfl
@[simp] theorem setKeySlot_draws (k : Key) (b : Bool) : (s.setKeySlot k b).draws = s.draws := rfl
@[simp] theorem readV_setKeySlot (k : Key) (b : Bool) (r : Reg) : (s.setKeySlot k b).readV r = s.readV r := rfl
@[simp] theorem memRead_setKeySlot (k : Key) (b : Bool) (m : Nat) : (s.setKeySlot k b).memRead m = s.memRead m := rfl
@[simp] theorem pixRead_setKeySlot (k : Key) (b : Bool) (px py : Nat) : (s.setKeySlot k b).pixRead px py = s.pixRead px py := rfl

/-! ### advancePC -/

@[simp] theorem advancePC_v : (s.advancePC).v = s.v := rfl
@[simp] theorem advancePC_i : (s.advancePC).i = s.i := rfl
@[simp] theorem advancePC_pc : (s.advancePC).pc = s.pc + 2 := rfl
@[simp] theorem advancePC_stack : (s.advancePC).stack = s.stack := rfl
@[simp] theorem advancePC_mem : (s.advancePC).mem = s.mem := rfl
@[simp] theorem advancePC_fb : (s.advancePC).fb = s.fb := rfl
@[simp] theorem advancePC_dirty : (s.advancePC).dirty = s.dirty := rfl
@[simp] theorem advancePC_dt : (s.advancePC).dt = s.dt := rfl
@[simp] theorem advancePC_st : (s.advancePC).st = s.st := rfl
@[simp] theorem advancePC_keys : (s.advancePC).keys = s.keys := rfl
@[simp] theorem advancePC_cfg : (s.advancePC).cfg = s.cfg := rfl
@[simp] theorem advancePC_targetFreq : (s.advancePC).targetFreq = s.targetFreq := rfl
@[simp] theorem advancePC_engine : (s.advancePC).engine = s.engine := rfl
@[simp] theorem advancePC_fault : (s.advancePC).fault = s.fault := rfl
@[simp] theorem advancePC_loaded : (s.advancePC).loaded = s.loaded := rfl
@[simp] theorem advancePC_draws : (s.advancePC).draws = s.draws := rfl
@[simp] theorem readV_advancePC (r : Reg) : (s.advancePC).readV r = s.readV r := rfl
@[simp] theorem memRead_advancePC (m : Nat) : (s.advancePC).memRead m = s.memRead m := rfl
@[simp] theorem pixRead_advancePC (px py : Nat) : (s.advancePC).pixRead px py = s.pixRead px py := rfl
@[simp] theorem readKey_advancePC (j : Key) : (s.advancePC).readKey j = s.readKey j := rfl

/-! ### rewindPC -/

@[simp] theorem rewindPC_v : (s.rewindPC).v = s.v := rfl
@[simp] theorem rewindPC_i : (s.rewindPC).i = s.i := rfl
@[simp] theorem rewindPC_pc : (s.rewindPC).pc = s.pc - 2 := rfl
@[simp] theorem rewindPC_stack : (s.rewindPC).stack = s.stack := rfl
@[simp] theorem rewindPC_mem : (s.rewindPC).mem = s.mem := rfl
@[simp] theorem rewindPC_fb : (s.rewindPC).fb = s.fb := rfl
@[simp] theorem rewindPC_dirty : (s.rewindPC).dirty = s.dirty := rfl
@[simp] theorem rewindPC_dt : (s.rewindPC).dt = s.dt := rfl
@[simp] theorem rewindPC_st : (s.rewindPC).st = s.st := rfl
@[simp] theorem rewindPC_keys : (s.rewindPC).keys = s.keys := rfl
@[simp] theorem rewindPC_cfg : (s.rewindPC).cfg = s.cfg := rfl
@[simp] theorem rewindPC_targetFreq : (s.rewindPC).targetFreq = s.targetFreq := rfl
@[simp] theorem rewindPC_engine : (s.rewindPC).engine = s.engine := rfl
@[simp] theorem rewindPC_fault : (s.rewindPC).fault = s.fault := rfl
@[simp] theorem rewindPC_loaded : (s.rewindPC).loaded = s.loaded := rfl
@[simp] theorem rewindPC_draws : (s.rewindPC).draws = s.draws := rfl
@[simp] theorem readV_rewindPC (r : Reg) : (s.rewindPC).readV r = s.readV r := rfl
@[simp] theorem memRead_rewindPC (m : Nat) : (s.rewindPC).memRead m = s.memRead m := rfl
@[simp] theorem pixRead_rewindPC (px py : Nat) : (s.rewindPC).pixRead px py = s.pixRead px py := rfl
@[simp] theorem readKey_rewindPC (j : Key) : (s.rewindPC).readKey j = s.readKey j := rfl

/-! ### nextDraw -/

@[simp] theorem nextDraw_v : (s.nextDraw).v = s.v := rfl
@[simp] theorem nextDraw_i : (s.nextDraw).i = s.i := rfl
@[simp] theorem nextDraw_pc : (s.nextDraw).pc = s.pc := rfl
@[simp] theorem nextDraw_stack : (s.nextDraw).stack = s.stack := rfl
@[simp] theorem nextDraw_mem : (s.nextDraw).mem = s.mem := rfl
@[simp] theorem nextDraw_fb : (s.nextDraw).fb = s.fb := rfl
@[simp] theorem nextDraw_dirty : (s.nextDraw).dirty = s.dirty := rfl
@[simp] theorem nextDraw_dt : (s.nextDraw).dt = s.dt := rfl
@[simp] theorem nextDraw_st : (s.nextDraw).st = s.st := rfl
@[simp] theorem nextDraw_keys : (s.nextDraw).keys = s.keys := rfl
@[simp] theorem nextDraw_cfg : (s.nextDraw).cfg = s.cfg := rfl
@[simp] theorem nextDraw_targetFreq : (s.nextDraw).targetFreq = s.targetFreq := rfl
@[simp] theorem nextDraw_engine : (s.nextDraw).engine = s.engine := rfl
@[simp] theorem nextDraw_fault : (s.nextDraw).fault = s.fault := rfl
@[simp] theorem nextDraw_loaded : (s.nextDraw).loaded = s.loaded := rfl
@[simp] theorem nextDraw_draws : (s.nextDraw).draws = s.draws + 1 := rfl
@[simp] theorem readV_nextDraw (r : Reg) : (s.nextDraw).readV r = s.readV r := rfl
@[simp] theorem memRead_nextDraw (m : Nat) : (s.nextDraw).memRead m = s.memRead m := rfl
@[simp] theorem pixRead_nextDraw (px py : Nat) : (s.nextDraw).pixRead px py = s.pixRead px py := rfl
@[simp] theorem readKey_nextDraw (j : Key) : (s.nextDraw).readKey j = s.readKey j := rfl

/-! ### memWrite -/

@[simp] theorem memWrite_v (a : Nat) (b : Byte) : (s.memWrite a b).v = s.v := rfl
@[simp] theorem memWrite_i (a : Nat) (b : Byte) : (s.memWrite a b).i = s.i := rfl
@[simp] theorem memWrite_pc (a : Nat) (b : Byte) : (s.memWrite a b).pc = s.pc := rfl
@[simp] theorem memWrite_stack (a : Nat) (b : Byte) : (s.memWrite a b).stack = s.stack := rfl
@[simp] theorem memWrite_mem (a : Nat) (b : Byte) : (s.memWrite a b).mem = Cells.set (resetByte s.cfg) s.mem (effectiveAddr s.cfg a) b := rfl
@[simp] theorem memWrite_fb (a : Nat) (b : Byte) : (s.memWrite a b).fb = s.fb := rfl
@[simp] theorem memWrite_dirty (a : Nat) (b : Byte) : (s.memWrite a b).dirty = s.dirty := rfl
@[simp] theorem memWrite_dt (a : Nat) (b : Byte) : (s.memWrite a b).dt = s.dt := rfl
@[simp] theorem memWrite_st (a : Nat) (b : Byte) : (s.memWrite a b).st = s.st := rfl
@[simp] theorem memWrite_keys (a : Nat) (b : Byte) : (s.memWrite a b).keys = s.keys := rfl
@[simp] theorem memWrite_cfg (a : Nat) (b : Byte) : (s.memWrite a b).cfg = s.cfg := rfl
@[simp] theorem memWrite_targetFreq (a : Nat) (b : Byte) : (s.memWrite a b).targetFreq = s.targetFreq := rfl
@[simp] theorem memWrite_engine (a : Nat) (b : Byte) : (s.memWrite a b).engine = s.engine := rfl
@[simp] theorem memWrite_fault (a : Nat) (b : Byte) : (s.memWrite a b).fault = s.fault := rfl
@[simp] theorem memWrite_loaded (a : Nat) (b : Byte) : (s.memWrite a b).loaded = s.loaded := rfl
@[simp] theorem memWrite_draws (a : Nat) (b : Byte) : (s.memWrite a b).draws = s.draws := rfl
@[simp] theorem readV_memWrite (a : Nat) (b : Byte) (r : Reg) : (s.memWrite a b).readV r = s.readV r := rfl
@[simp] theorem pixRead_memWrite (a : Nat) (b : Byte) (px py : Nat) : (s.memWrite a b).pixRead px py = s.pixRead px py := rfl
@[simp] theorem readKey_memWrite (a : Nat) (b : Byte) (j : Key) : (s.memWrite a b).readKey j = s.readKey j := rfl

/-! ### pixWrite -/

@[simp] theorem pixWrite_v (x y : Nat) (b : Bool) : (s.pixWrite x y b).v = s.v := rfl
@[simp] theorem pixWrite_i (x y : Nat) (b : Bool) : (s.pixWrite x y b).i = s.i := rfl
@[simp] theorem pixWrite_pc (x y : Nat) (b : Bool) : (s.pixWrite x y b).pc = s.pc := rfl
@[simp] theorem pixWrite_stack (x y : Nat) (b : Bool) : (s.pixWrite x y b).stack = s.stack := rfl
@[simp] theorem pixWrite_mem (x y : Nat) (b : Bool) : (s.pixWrite x y b).mem = s.mem := rfl
@[simp] theorem pixWrite_fb (x y : Nat) (b : Bool) : (s.pixWrite x y b).fb = Cells.set blankPixel s.fb (pixelKey s.cfg x y) b := rfl
@[simp] theorem pixWrite_dirty (x y : Nat) (b : Bool) : (s.pixWrite x y b).dirty = true := rfl
@[simp] theorem pixWrite_dt (x y : Nat) (b : Bool) : (s.pixWrite x y b).dt = s.dt := rfl
@[simp] theorem pixWrite_st (x y : Nat) (b : Bool) : (s.pixWrite x y b).st = s.st := rfl
@[simp] theorem pixWrite_keys (x y : Nat) (b : Bool) : (s.pixWrite x y b).keys = s.keys := rfl
@[simp] theorem pixWrite_cfg (x y : Nat) (b : Bool) : (s.pixWrite x y b).cfg = s.cfg := rfl
@[simp] theorem pixWrite_targetFreq (x y : Nat) (b : Bool) : (s.pixWrite x y b).targetFreq = s.targetFreq := rfl
@[simp] theorem pixWrite_engine (x y : Nat) (b : Bool) : (s.pixWrite x y b).engine = s.engine := rfl
@[simp] theorem pixWrite_fault (x y : Nat) (b : Bool) : (s.pixWrite x y b).fault = s.fault := rfl
@[simp] theorem pixWrite_loaded (x y : Nat) (b : Bool) : (s.pixWrite x y b).loaded = s.loaded := rfl
@[simp] theorem pixWrite_draws (x y : Nat) (b : Bool) : (s.pixWrite x y b).draws = s.draws := rfl
@[simp] theorem readV_pixWrite (x y : Nat) (b : Bool) (r : Reg) : (s.pixWrite x y b).readV r = s.readV r := rfl
@[simp] theorem memRead_pixWrite (x y : Nat) (b : Bool) (m : Nat) : (s.pixWrite x y b).memRead m = s.memRead m := rfl
@[simp] theorem readKey_pixWrite (x y : Nat) (b : Bool) (j : Key) : (s.pixWrite x y b).readKey j = s.readKey j := rfl

/-! ### clearDisplay -/

@[simp] theorem clearDisplay_v : (s.clearDisplay).v = s.v := rfl
@[simp] theorem clearDisplay_i : (s.clearDisplay).i = s.i := rfl
@[simp] theorem clearDisplay_pc : (s.clearDisplay).pc = s.pc := rfl
@[simp] theorem clearDisplay_stack : (s.clearDisplay).stack = s.stack := rfl
@[simp] theorem clearDisplay_mem : (s.clearDisplay).mem = s.mem := rfl
@[simp] theorem clearDisplay_fb : (s.clearDisplay).fb = [] := rfl
@[simp] theorem clearDisplay_dirty : (s.clearDisplay).dirty = true := rfl
@[simp] theorem clearDisplay_dt : (s.clearDisplay).dt = s.dt := rfl
@[simp] theorem clearDisplay_st : (s.clearDisplay).st = s.st := rfl
@[simp] theorem clearDisplay_keys : (s.clearDisplay).keys = s.keys := rfl
@[simp] theorem clearDisplay_cfg : (s.clearDisplay).cfg = s.cfg := rfl
@[simp] theorem clearDisplay_targetFreq : (s.clearDisplay).targetFreq = s.targetFreq := rfl
@[simp] theorem clearDisplay_engine : (s.clearDisplay).engine = s.engine := rfl
@[simp] theorem clearDisplay_fault : (s.clearDisplay).fault = s.fault := rfl
@[simp] theorem clearDisplay_loaded : (s.clearDisplay).loaded = s.loaded := rfl
@[simp] theorem clearDisplay_draws : (s.clearDisplay).draws = s.draws := rfl
@[simp] theorem readV_clearDisplay (r : Reg) : (s.clearDisplay).readV r = s.readV r := rfl
@[simp] theorem memRead_clearDisplay (m : Nat) : (s.clearDisplay).memRead m = s.memRead m := rfl
@[simp] theorem readKey_clearDisplay (j : Key) : (s.clearDisplay).readKey j = s.readKey j := rfl

/-! ### enterFault -/

@[simp] theorem enterFault_v (f : Fault) : (s.enterFault f).v = s.v := rfl
@[simp] theorem enterFault_i (f : Fault) : (s.enterFault f).i = s.i := rfl
@[simp] theorem enterFault_pc (f : Fault) : (s.enterFault f).pc = s.pc := rfl
@[simp] theorem enterFault_stack (f : Fault) : (s.enterFault f).stack = s.stack := rfl
@[simp] theorem enterFault_mem (f : Fault) : (s.enterFault f).mem = s.mem := rfl
@[simp] theorem enterFault_fb (f : Fault) : (s.enterFault f).fb = s.fb := rfl
@[simp] theorem enterFault_dirty (f : Fault) : (s.enterFault f).dirty = s.dirty := rfl
@[simp] theorem enterFault_dt (f : Fault) : (s.enterFault f).dt = s.dt := rfl
@[simp] theorem enterFault_st (f : Fault) : (s.enterFault f).st = s.st := rfl
@[simp] theorem enterFault_keys (f : Fault) : (s.enterFault f).keys = s.keys := rfl
@[simp] theorem enterFault_cfg (f : Fault) : (s.enterFault f).cfg = s.cfg := rfl
@[simp] theorem enterFault_targetFreq (f : Fault) : (s.enterFault f).targetFreq = s.targetFreq := rfl
@[simp] theorem enterFault_engine (f : Fault) : (s.enterFault f).engine = .faulted := rfl
@[simp] theorem enterFault_fault (f : Fault) : (s.enterFault f).fault = some f := rfl
@[simp] theorem enterFault_loaded (f : Fault) : (s.enterFault f).loaded = s.loaded := rfl
@[simp] theorem enterFault_draws (f : Fault) : (s.enterFault f).draws = s.draws := rfl
@[simp] theorem readV_enterFault (f : Fault) (r : Reg) : (s.enterFault f).readV r = s.readV r := rfl
@[simp] theorem memRead_enterFault (f : Fault) (m : Nat) : (s.enterFault f).memRead m = s.memRead m := rfl
@[simp] theorem pixRead_enterFault (f : Fault) (px py : Nat) : (s.enterFault f).pixRead px py = s.pixRead px py := rfl
@[simp] theorem readKey_enterFault (f : Fault) (j : Key) : (s.enterFault f).readKey j = s.readKey j := rfl

end Sys2Proof.Machine.State
end

