-- ==== Sys2Proof/Laws/Ops.lean ====
section
/-! SUPPORT. What each shared operation can do, said once: reads after writes, frames of the loops, the
canonical forms kept. -/

namespace Sys2Proof.Machine

open Sys2Proof.Config

/-! ### Registers and keys -/

@[simp] theorem State.readV_writeV (s : State) (x r : Reg) (b : Byte) :
    (s.writeV x b).readV r = if r = x then b else s.readV r := by
  by_cases h : r = x
  · subst h
    simp [State.readV, State.writeV]
  · have h' : x.val ≠ r.val := fun e => h (Fin.ext e.symm)
    simp [State.readV, State.writeV, h, Vector.getElem_set_ne _ _ h']

@[simp] theorem State.readV_writeVF (s : State) (r : Reg) (b : Byte) :
    (s.writeVF b).readV r = if r = 15 then b else s.readV r :=
  State.readV_writeV s 15 r b

@[simp] theorem State.readKey_setKeySlot (s : State) (k j : Key) (b : Bool) :
    (s.setKeySlot k b).readKey j = if j = k then b else s.readKey j := by
  by_cases h : j = k
  · subst h
    simp [State.readKey, State.setKeySlot]
  · have h' : k.val ≠ j.val := fun e => h (Fin.ext e.symm)
    simp [State.readKey, State.setKeySlot, h, Vector.getElem_set_ne _ _ h']

/-- A register file is what its sixteen reads say. -/
theorem State.v_ext (s t : State) (h : ∀ r, t.readV r = s.readV r) : t.v = s.v := by
  refine Vector.ext fun k hk => ?_
  simpa [State.readV] using h ⟨k, hk⟩

/-! ### Memory -/

@[simp] theorem State.memRead_memWrite (s : State) (a a' : Nat) (b : Byte) :
    (s.memWrite a b).memRead a' =
      if effectiveAddr s.cfg a' = effectiveAddr s.cfg a then b else s.memRead a' := by
  simp only [State.memRead, State.memWrite, Cells.get_set]

@[simp] theorem effectiveAddr_effectiveAddr (c : Cfg) (a : Nat) :
    effectiveAddr c (effectiveAddr c a) = effectiveAddr c a := by
  simp [effectiveAddr]

theorem effectiveAddr_lt (c : Cfg) (a : Nat) (h : 1 ≤ c.memSize) : effectiveAddr c a < c.memSize :=
  Nat.mod_lt a h

/-- Two of fewer than `MEM_SIZE` consecutive elements never share a cell. -/
theorem effectiveAddr_add_inj (c : Cfg) (a j k : Nat) (hj : j < c.memSize) (hk : k < c.memSize) :
    effectiveAddr c (a + j) = effectiveAddr c (a + k) ↔ j = k := by
  constructor
  · intro h
    have h' : j ≡ k [MOD c.memSize] := Nat.ModEq.add_left_cancel' a h
    rwa [Nat.ModEq, Nat.mod_eq_of_lt hj, Nat.mod_eq_of_lt hk] at h'
  · rintro rfl
    rfl

/-- A run of byte writes changes memory and nothing else. -/
theorem State.memWriteAll_frame (s : State) (a : Nat) (bs : List Byte) :
    s.memWriteAll a bs = { s with mem := (s.memWriteAll a bs).mem } := by
  induction bs generalizing s a with
  | nil => rfl
  | cons b bs ih =>
    rw [State.memWriteAll, ih (s.memWrite a b) (a + 1)]
    rfl

@[simp] theorem State.memWriteAll_cfg (s : State) (a : Nat) (bs : List Byte) :
    (s.memWriteAll a bs).cfg = s.cfg := by rw [State.memWriteAll_frame]

/-- A cell outside those written reads as before. -/
theorem State.memRead_memWriteAll_of_ne (s : State) (a a' : Nat) (bs : List Byte)
    (h : ∀ k < bs.length, effectiveAddr s.cfg a' ≠ effectiveAddr s.cfg (a + k)) :
    (s.memWriteAll a bs).memRead a' = s.memRead a' := by
  induction bs generalizing s a with
  | nil => rfl
  | cons b bs ih =>
    rw [State.memWriteAll, ih]
    · have h0 := h 0 (by simp)
      rw [Nat.add_zero] at h0
      rw [State.memRead_memWrite, if_neg h0]
    · intro k hk
      have := h (k + 1) (by simpa using hk)
      rwa [State.memWrite_cfg, Nat.add_assoc, Nat.add_comm 1 k]

/-- Element `k` of a run that does not reach round to its own start reads as it was written. -/
theorem State.memRead_memWriteAll (s : State) (a k : Nat) (bs : List Byte) (hk : k < bs.length)
    (hlen : bs.length ≤ s.cfg.memSize) : (s.memWriteAll a bs).memRead (a + k) = bs[k] := by
  induction bs generalizing s a k with
  | nil => exact absurd hk (Nat.not_lt_zero k)
  | cons b bs ih =>
    rw [State.memWriteAll]
    have hlen' : bs.length < s.cfg.memSize := by simpa using hlen
    cases k with
    | zero =>
      rw [Nat.add_zero, State.memRead_memWriteAll_of_ne]
      · simp
      · intro j hj he
        rw [State.memWrite_cfg] at he
        have hz : effectiveAddr s.cfg (a + 0) = effectiveAddr s.cfg (a + (1 + j)) := by
          rw [he, Nat.add_assoc]
        have := (effectiveAddr_add_inj s.cfg a 0 (1 + j) (by omega) (by omega)).mp hz
        omega
    | succ k =>
      have hk' : k < bs.length := by simpa using hk
      have := ih (s.memWrite a b) (a + 1) k hk' (by simpa using Nat.le_of_lt hlen')
      rw [Nat.add_assoc, Nat.add_comm 1 k] at this
      simpa using this

/-- Every write keeps memory in its canonical form. -/
theorem State.memWrite_wf (s : State) (a : Nat) (b : Byte) (hm : 1 ≤ s.cfg.memSize)
    (h : Memory.wf s.cfg s.mem = true) : Memory.wf (s.memWrite a b).cfg (s.memWrite a b).mem = true :=
  Cells.canonical_set _ _ _ _ _ (effectiveAddr_lt s.cfg a hm) h

theorem State.memWriteAll_wf (s : State) (a : Nat) (bs : List Byte) (hm : 1 ≤ s.cfg.memSize)
    (h : Memory.wf s.cfg s.mem = true) :
    Memory.wf (s.memWriteAll a bs).cfg (s.memWriteAll a bs).mem = true := by
  induction bs generalizing s a with
  | nil => exact h
  | cons b bs ih => exact ih (s.memWrite a b) (a + 1) hm (s.memWrite_wf a b hm h)

/-! ### Framebuffer -/

/-- Pixels in range have distinct keys. -/
theorem pixelKey_inj (c : Cfg) (x y x' y' : Nat) (hx : x < c.displayWidth) (hx' : x' < c.displayWidth) :
    pixelKey c x y = pixelKey c x' y' ↔ x = x' ∧ y = y' := by
  constructor
  · intro h
    have hm := congrArg (· % c.displayWidth) h
    have hd := congrArg (· / c.displayWidth) h
    have hw : 0 < c.displayWidth := by omega
    simp only [pixelKey] at hm hd
    rw [Nat.mul_comm y, Nat.mul_comm y', Nat.mul_add_mod, Nat.mul_add_mod, Nat.mod_eq_of_lt hx,
      Nat.mod_eq_of_lt hx'] at hm
    rw [Nat.mul_comm y, Nat.mul_comm y', Nat.mul_add_div hw, Nat.mul_add_div hw, Nat.div_eq_of_lt hx,
      Nat.div_eq_of_lt hx'] at hd
    exact ⟨hm, by simpa using hd⟩
  · rintro ⟨rfl, rfl⟩
    rfl

theorem pixelKey_lt (c : Cfg) (x y : Nat) (hx : x < c.displayWidth) (hy : y < c.displayHeight) :
    pixelKey c x y < c.displayWidth * c.displayHeight := by
  have h1 : (y + 1) * c.displayWidth ≤ c.displayHeight * c.displayWidth := Nat.mul_le_mul_right _ hy
  rw [Nat.add_mul, Nat.one_mul] at h1
  rw [Nat.mul_comm c.displayWidth, pixelKey]
  omega

@[simp] theorem State.pixRead_pixWrite (s : State) (x y x' y' : Nat) (b : Bool) :
    (s.pixWrite x y b).pixRead x' y' =
      if pixelKey s.cfg x' y' = pixelKey s.cfg x y then b else s.pixRead x' y' := by
  simp only [State.pixRead, State.pixWrite, Cells.get_set]

@[simp] theorem State.pixRead_clearDisplay (s : State) (x y : Nat) : s.clearDisplay.pixRead x y = false := rfl

theorem State.pixWrite_wf (s : State) (x y : Nat) (b : Bool) (hx : x < s.cfg.displayWidth)
    (hy : y < s.cfg.displayHeight) (h : FrameBuffer.wf s.cfg s.fb = true) :
    FrameBuffer.wf (s.pixWrite x y b).cfg (s.pixWrite x y b).fb = true :=
  Cells.canonical_set _ _ _ _ _ (pixelKey_lt s.cfg x y hx hy) h

/-! ### Address stack -/

/-- Everything a push can do. -/
theorem State.push_eq_some (s s' : State) (a : Word) :
    s.push a = some s' ↔ s.stack.length < s.cfg.stackDepth ∧ s' = { s with stack := a :: s.stack } := by
  unfold State.push
  split <;> rename_i h
  · simp [h, eq_comm]
  · simp [h]

/-- Everything a pop can do. -/
theorem State.pop_eq_some (s s' : State) (a : Word) :
    s.pop = some (a, s') ↔ ∃ rest, s.stack = a :: rest ∧ s' = { s with stack := rest } := by
  unfold State.pop
  cases h : s.stack with
  | nil => simp
  | cons b r => simp [eq_comm]

theorem State.pop_eq_none (s : State) : s.pop = none ↔ s.stack = [] := by
  unfold State.pop
  cases s.stack <;> simp

/-! ### Conditional updates -/

/-- A skip changes `PC` and nothing else. -/
theorem State.skipIf_eq (s : State) (b : Bool) :
    s.skipIf b = { s with pc := if b then s.pc + 2 else s.pc } := by
  cases b <;> rfl

/-- The advance of `I` after a block transfer changes `I` and nothing else. -/
theorem State.advanceI_eq (s : State) (n : Nat) :
    s.advanceI n = { s with i := if s.cfg.memIncrementsI then s.i + BitVec.ofNat 16 n else s.i } := by
  unfold State.advanceI
  split <;> simp_all [State.setI]

/-- The overflow report changes `VF` and nothing else. -/
theorem State.reportOverflow_eq (s : State) (b : Bool) :
    s.reportOverflow b =
      { s with v := if s.cfg.addiOverflowVF then s.v.set flagReg (flagByte b) else s.v } := by
  unfold State.reportOverflow
  split <;> simp_all [State.writeVF, State.writeV]

/-! ### Key scan -/

theorem State.scanKeys_some (s : State) (k : Key) (start fuel : Nat) (hf : start + fuel ≤ 16)
    (h : s.scanKeys start fuel = some k) :
    s.readKey k = true ∧ ∀ j : Key, start ≤ j.val → j < k → s.readKey j = false := by
  induction fuel generalizing start with
  | zero => cases h
  | succ fuel ih =>
    have hs : (Fin.ofNat 16 start).val = start := Nat.mod_eq_of_lt (by omega)
    rw [State.scanKeys] at h
    split at h
    · rename_i hp
      cases h
      exact ⟨hp, fun j hj hlt => absurd (Fin.lt_def.mp hlt) (by omega)⟩
    · rename_i hp
      obtain ⟨h1, h2⟩ := ih (start + 1) (by omega) h
      refine ⟨h1, fun j hj hlt => ?_⟩
      by_cases he : j.val = start
      · have : j = Fin.ofNat 16 start := Fin.ext (by omega)
        simpa [this] using hp
      · exact h2 j (by omega) hlt

theorem State.scanKeys_none (s : State) (start fuel : Nat) (hf : start + fuel ≤ 16)
    (h : s.scanKeys start fuel = none) : ∀ j : Key, start ≤ j.val → j.val < start + fuel → s.readKey j = false := by
  induction fuel generalizing start with
  | zero => intro j h1 h2; omega
  | succ fuel ih =>
    have hs : (Fin.ofNat 16 start).val = start := Nat.mod_eq_of_lt (by omega)
    rw [State.scanKeys] at h
    split at h
    · cases h
    · rename_i hp
      intro j h1 h2
      by_cases he : j.val = start
      · have : j = Fin.ofNat 16 start := Fin.ext (by omega)
        simpa [this] using hp
      · exact ih (start + 1) (by omega) h j (by omega) (by omega)

/-- The scan answers the least pressed key. -/
theorem State.firstKey_eq_some (s : State) (k : Key) :
    s.firstKey = some k ↔ s.readKey k = true ∧ ∀ j < k, s.readKey j = false := by
  constructor
  · intro h
    obtain ⟨h1, h2⟩ := s.scanKeys_some k 0 16 (by omega) h
    exact ⟨h1, fun j hj => h2 j (Nat.zero_le _) hj⟩
  · rintro ⟨h1, h2⟩
    cases h : s.firstKey with
    | none =>
      have := s.scanKeys_none 0 16 (by omega) h k (Nat.zero_le _) (by omega)
      simp [this] at h1
    | some j =>
      obtain ⟨h3, h4⟩ := s.scanKeys_some j 0 16 (by omega) h
      rcases lt_trichotomy j k with hlt | rfl | hgt
      · simp [h2 j hlt] at h3
      · rfl
      · simp [h4 k (Nat.zero_le _) hgt] at h1

theorem State.firstKey_eq_none (s : State) : s.firstKey = none ↔ ∀ k, s.readKey k = false := by
  constructor
  · intro h k
    exact s.scanKeys_none 0 16 (by omega) h k (Nat.zero_le _) (by omega)
  · intro h
    cases hk : s.firstKey with
    | none => rfl
    | some k => exact absurd ((s.firstKey_eq_some k).mp hk).1 (by simp [h k])

/-! ### Block load -/

/-- A block load changes general registers and nothing else. -/
theorem State.loadRegs_frame (s : State) (base n : Nat) :
    s.loadRegs base n = { s with v := (s.loadRegs base n).v } := by
  induction n with
  | zero => rfl
  | succ n ih =>
    rw [State.loadRegs, ih]
    rfl

theorem State.readV_loadRegs (s : State) (base n : Nat) (hn : n ≤ 16) (r : Reg) :
    (s.loadRegs base n).readV r = if r.val < n then s.memRead (base + r.val) else s.readV r := by
  induction n with
  | zero => simp [State.loadRegs]
  | succ n ih =>
    have hv : (Fin.ofNat 16 n).val = n := Nat.mod_eq_of_lt (by omega)
    have hmem : (s.loadRegs base n).memRead (base + n) = s.memRead (base + n) := by
      rw [State.loadRegs_frame]; rfl
    rw [State.loadRegs, State.readV_writeV, ih (by omega), hmem]
    by_cases h : r = Fin.ofNat 16 n
    · have hr : r.val = n := by rw [h, hv]
      rw [if_pos h, if_pos (by omega), hr]
    · have : r.val ≠ n := fun e => h (Fin.ext (by omega))
      simp only [h, if_false]
      by_cases h' : r.val < n
      · simp [h', Nat.lt_succ_of_lt h']
      · have : ¬ r.val < n + 1 := by omega
        simp [h', this]

/-! ### Sprite drawing -/

/-- A toggle changes `VF`, the framebuffer and `DIRTY`, and nothing else. -/
theorem State.togglePixel_frame (s : State) (px py : Nat) :
    s.togglePixel px py =
      { s with
        v := (s.togglePixel px py).v, fb := (s.togglePixel px py).fb, dirty := (s.togglePixel px py).dirty } := by
  unfold State.togglePixel
  split <;> rfl

theorem State.drawCols_frame (s : State) (x0 py : Nat) (b : Byte) (n : Nat) :
    s.drawCols x0 py b n =
      { s with
        v := (s.drawCols x0 py b n).v, fb := (s.drawCols x0 py b n).fb,
        dirty := (s.drawCols x0 py b n).dirty } := by
  induction n with
  | zero => rfl
  | succ n ih =>
    simp only [State.drawCols]
    split
    · rw [State.togglePixel_frame, ih]
    · exact ih

/-- Drawing changes `VF`, the framebuffer and `DIRTY`, and nothing else. -/
theorem State.drawRows_frame (s : State) (x0 y0 n : Nat) :
    s.drawRows x0 y0 n =
      { s with
        v := (s.drawRows x0 y0 n).v, fb := (s.drawRows x0 y0 n).fb, dirty := (s.drawRows x0 y0 n).dirty } := by
  induction n with
  | zero => rfl
  | succ n ih =>
    simp only [State.drawRows]
    rw [State.drawCols_frame, ih]

theorem State.readV_togglePixel_of_ne (s : State) (px py : Nat) (r : Reg) (hr : r ≠ 15) :
    (s.togglePixel px py).readV r = s.readV r := by
  unfold State.togglePixel
  split <;> simp [hr]

theorem State.readV_drawCols_of_ne (s : State) (x0 py : Nat) (b : Byte) (n : Nat) (r : Reg) (hr : r ≠ 15) :
    (s.drawCols x0 py b n).readV r = s.readV r := by
  induction n with
  | zero => rfl
  | succ n ih =>
    simp only [State.drawCols]
    split
    · rw [State.readV_togglePixel_of_ne _ _ _ _ hr, ih]
    · exact ih

theorem State.readV_drawRows_of_ne (s : State) (x0 y0 n : Nat) (r : Reg) (hr : r ≠ 15) :
    (s.drawRows x0 y0 n).readV r = s.readV r := by
  induction n with
  | zero => rfl
  | succ n ih =>
    simp only [State.drawRows]
    rw [State.readV_drawCols_of_ne _ _ _ _ _ _ hr, ih]

theorem State.togglePixel_wf (s : State) (px py : Nat) (hx : px < s.cfg.displayWidth)
    (hy : py < s.cfg.displayHeight) (h : FrameBuffer.wf s.cfg s.fb = true) :
    FrameBuffer.wf s.cfg (s.togglePixel px py).fb = true := by
  unfold State.togglePixel
  split
  · exact (s.writeVF 1).pixWrite_wf px py false hx hy h
  · exact s.pixWrite_wf px py true hx hy h

theorem State.drawCols_wf (s : State) (x0 py : Nat) (b : Byte) (n : Nat) (hw : 1 ≤ s.cfg.displayWidth)
    (hy : py < s.cfg.displayHeight) (h : FrameBuffer.wf s.cfg s.fb = true) :
    FrameBuffer.wf s.cfg (s.drawCols x0 py b n).fb = true := by
  induction n with
  | zero => exact h
  | succ n ih =>
    have hc : (s.drawCols x0 py b n).cfg = s.cfg := by rw [State.drawCols_frame]
    simp only [State.drawCols]
    split
    · rw [← hc] at ih hw hy ⊢
      exact (s.drawCols x0 py b n).togglePixel_wf _ _ (Nat.mod_lt _ hw) hy ih
    · exact ih

theorem State.drawRows_wf (s : State) (x0 y0 n : Nat) (hw : 1 ≤ s.cfg.displayWidth)
    (hh : 1 ≤ s.cfg.displayHeight) (h : FrameBuffer.wf s.cfg s.fb = true) :
    FrameBuffer.wf s.cfg (s.drawRows x0 y0 n).fb = true := by
  induction n with
  | zero => exact h
  | succ n ih =>
    have hc : (s.drawRows x0 y0 n).cfg = s.cfg := by rw [State.drawRows_frame]
    simp only [State.drawRows]
    rw [← hc] at ih hw hh ⊢
    exact (s.drawRows x0 y0 n).drawCols_wf _ _ _ _ hw (Nat.mod_lt _ hh) ih

end Sys2Proof.Machine
end

