-- ==== Sys2Proof/Laws/Display.lean ====
section
/-! SUPPORT. Drawing as a run of pixel toggles, and what a run of toggles leaves. -/

namespace Sys2Proof.Machine

open Sys2Proof.Config

/-- Toggles at the listed pixels, in their order. -/
def State.toggleAll (s : State) (ps : List (Nat × Nat)) : State :=
  ps.foldl (fun s p => s.togglePixel p.1 p.2) s

theorem State.toggleAll_append (s : State) (ps qs : List (Nat × Nat)) :
    s.toggleAll (ps ++ qs) = (s.toggleAll ps).toggleAll qs := by
  simp [State.toggleAll]

theorem State.toggleAll_cons (s : State) (p : Nat × Nat) (ps : List (Nat × Nat)) :
    s.toggleAll (p :: ps) = (s.togglePixel p.1 p.2).toggleAll ps := rfl

/-- The pixels that a sprite row names, left to right. -/
def rowHits (c : Cfg) (x0 py : Nat) (b : Byte) (count : Nat) : List (Nat × Nat) :=
  ((List.range count).filter (spriteBit b)).map fun k => ((x0 + k) % c.displayWidth, py)

theorem State.drawCols_eq_toggleAll (s : State) (x0 py : Nat) (b : Byte) (n : Nat) :
    s.drawCols x0 py b n = s.toggleAll (rowHits s.cfg x0 py b n) := by
  induction n with
  | zero => rfl
  | succ n ih =>
    have hc : (s.drawCols x0 py b n).cfg = s.cfg := by rw [State.drawCols_frame]
    rw [rowHits, List.range_succ, List.filter_append, List.map_append, State.toggleAll_append]
    change _ = (s.toggleAll (rowHits s.cfg x0 py b n)).toggleAll _
    rw [← ih]
    by_cases h : spriteBit b n <;> simp [State.drawCols, State.toggleAll, h, hc]

/-- Drawing is a run of toggles, row by row. -/
theorem State.drawRows_eq_toggleAll (s : State) (x0 y0 n : Nat) :
    s.drawRows x0 y0 n = s.toggleAll ((List.range n).flatMap fun r =>
      rowHits s.cfg x0 ((y0 + r) % s.cfg.displayHeight) (s.memRead (s.elementAddr r)) 8) := by
  induction n with
  | zero => rfl
  | succ n ih =>
    have hf := s.drawRows_frame x0 y0 n
    have hc : (s.drawRows x0 y0 n).cfg = s.cfg := by rw [hf]
    have hm : (s.drawRows x0 y0 n).memRead ((s.drawRows x0 y0 n).elementAddr n) =
        s.memRead (s.elementAddr n) := by rw [hf]; rfl
    rw [List.range_succ, List.flatMap_append, State.toggleAll_append, ← ih, State.drawRows]
    simp only [hc, hm, State.drawCols_eq_toggleAll, List.flatMap_cons, List.flatMap_nil, List.append_nil]

theorem State.toggleAll_frame (s : State) (ps : List (Nat × Nat)) :
    s.toggleAll ps =
      { s with v := (s.toggleAll ps).v, fb := (s.toggleAll ps).fb, dirty := (s.toggleAll ps).dirty } := by
  induction ps generalizing s with
  | nil => rfl
  | cons p ps ih =>
    rw [State.toggleAll_cons, ih (s.togglePixel p.1 p.2), State.togglePixel_frame]

theorem State.pixRead_togglePixel (s : State) (px py x y : Nat) (hp : px < s.cfg.displayWidth)
    (hx : x < s.cfg.displayWidth) :
    (s.togglePixel px py).pixRead x y = (s.pixRead x y ^^ decide ((x, y) = (px, py))) := by
  have hk := pixelKey_inj s.cfg x y px py hx hp
  unfold State.togglePixel
  by_cases he : x = px ∧ y = py
  · obtain ⟨rfl, rfl⟩ := he
    cases s.pixRead x y <;> simp
  · have hne : ¬ pixelKey s.cfg x y = pixelKey s.cfg px py := fun h => he (hk.mp h)
    cases s.pixRead px py <;> simp [State.writeVF, State.writeV, hne, he]
    rfl

theorem State.readVF_togglePixel (s : State) (px py : Nat) :
    (s.togglePixel px py).readV 15 = if s.pixRead px py then 1 else s.readV 15 := by
  unfold State.togglePixel
  split <;> simp_all

/-- A pixel ends toggled once for each time that it is listed. -/
theorem State.pixRead_toggleAll (s : State) (ps : List (Nat × Nat)) (x y : Nat)
    (hps : ∀ p ∈ ps, p.1 < s.cfg.displayWidth) (hx : x < s.cfg.displayWidth) :
    (s.toggleAll ps).pixRead x y = (s.pixRead x y ^^ decide (ps.count (x, y) % 2 = 1)) := by
  induction ps generalizing s with
  | nil => simp [State.toggleAll]
  | cons p ps ih =>
    have hc : (s.togglePixel p.1 p.2).cfg = s.cfg := by rw [State.togglePixel_frame]
    have hp := hps p (by simp)
    rw [State.toggleAll_cons, ih _ (by rw [hc]; exact fun q hq => hps q (by simp [hq])) (by rwa [hc]),
      State.pixRead_togglePixel s _ _ _ _ hp hx]
    by_cases he : (x, y) = p
    · subst he
      rcases Nat.mod_two_eq_zero_or_one (ps.count (x, y)) with h | h <;>
        simp [h, Nat.add_mod]
    · have he' : ¬ p = (x, y) := fun h => he h.symm
      simp [he, List.count_cons_of_ne he']

/-- `VF` after a run of toggles: 1 if a listed pixel was set before, or is listed more than once. -/
theorem State.readVF_toggleAll (s : State) (ps : List (Nat × Nat))
    (hps : ∀ p ∈ ps, p.1 < s.cfg.displayWidth) :
    ((∃ p ∈ ps, s.pixRead p.1 p.2 = true ∨ 1 < ps.count p) → (s.toggleAll ps).readV 15 = 1) ∧
    (¬ (∃ p ∈ ps, s.pixRead p.1 p.2 = true ∨ 1 < ps.count p) → (s.toggleAll ps).readV 15 = s.readV 15) := by
  induction ps generalizing s with
  | nil => simp [State.toggleAll]
  | cons p ps ih =>
    have hc : (s.togglePixel p.1 p.2).cfg = s.cfg := by rw [State.togglePixel_frame]
    have hp := hps p (by simp)
    have hps' : ∀ q ∈ ps, q.1 < s.cfg.displayWidth := fun q hq => hps q (by simp [hq])
    obtain ⟨ih1, ih0⟩ := ih (s.togglePixel p.1 p.2) (by rwa [hc])
    have hpix : ∀ q ∈ ps, (s.togglePixel p.1 p.2).pixRead q.1 q.2 = (s.pixRead q.1 q.2 ^^ decide (q = p)) :=
      fun q hq => s.pixRead_togglePixel p.1 p.2 q.1 q.2 hp (hps' q hq)
    have key : (∃ q ∈ p :: ps, s.pixRead q.1 q.2 = true ∨ 1 < (p :: ps).count q) ↔
        s.pixRead p.1 p.2 = true ∨
          ∃ q ∈ ps, (s.togglePixel p.1 p.2).pixRead q.1 q.2 = true ∨ 1 < ps.count q := by
      constructor
      · rintro ⟨q, hq, h⟩
        by_cases hs : s.pixRead p.1 p.2 = true
        · exact .inl hs
        right
        by_cases he : q = p
        · subst he
          have hn : 0 < ps.count q := by
            rcases h with h | h
            · exact absurd h hs
            · simpa using h
          have hm := List.count_pos_iff.mp hn
          exact ⟨q, hm, .inl (by rw [hpix q hm]; simp [hs])⟩
        · have hm : q ∈ ps := by simpa [he] using hq
          refine ⟨q, hm, ?_⟩
          rw [hpix q hm]
          rw [List.count_cons_of_ne (Ne.symm he)] at h
          simpa [he] using h
      · rintro (h | ⟨q, hq, h⟩)
        · exact ⟨p, by simp, .inl h⟩
        · by_cases he : q = p
          · subst he
            exact ⟨q, by simp, .inr (by simpa using List.count_pos_iff.mpr hq)⟩
          · refine ⟨q, by simp [hq], ?_⟩
            rw [hpix q hq] at h
            rw [List.count_cons_of_ne (Ne.symm he)]
            simpa [he] using h
    rw [State.toggleAll_cons, key]
    constructor
    · intro h
      by_cases h' : ∃ q ∈ ps, (s.togglePixel p.1 p.2).pixRead q.1 q.2 = true ∨ 1 < ps.count q
      · exact ih1 h'
      · rw [ih0 h', State.readVF_togglePixel, if_pos (h.resolve_right h')]
    · intro h
      rw [not_or] at h
      rw [ih0 h.2, State.readVF_togglePixel, if_neg h.1]

/-- Every toggle sets `DIRTY`. -/
theorem State.dirty_toggleAll (s : State) (ps : List (Nat × Nat)) :
    (s.toggleAll ps).dirty = (s.dirty || decide (ps ≠ [])) := by
  induction ps generalizing s with
  | nil => simp [State.toggleAll]
  | cons p ps ih =>
    have hd : (s.togglePixel p.1 p.2).dirty = true := by
      unfold State.togglePixel
      split <;> rfl
    rw [State.toggleAll_cons, ih, hd]
    simp

end Sys2Proof.Machine
end

