-- ==== Sys2Proof/Laws/Load.lean ====
section
/-! SUPPORT. What placing a program leaves in memory, and when a load raises no fault. -/

namespace Sys2Proof.Machine

open Sys2Proof.Config

/-- A cell outside the program reads as before. -/
theorem Memory.get_place_of_outside (c : Cfg) (m : Memory) (a k : Nat) (bs : List Byte)
    (h : ¬ (a ≤ k ∧ k < a + bs.length)) :
    Cells.get (resetByte c) (Memory.place c m a bs) k = Cells.get (resetByte c) m k := by
  induction bs generalizing m a with
  | nil => rfl
  | cons b bs ih =>
    simp only [List.length_cons] at h
    rw [Memory.place, ih _ _ (by omega), Cells.get_set, if_neg (by omega)]

/-- Byte `k` of the program is in cell `a + k`. -/
theorem Memory.get_place (c : Cfg) (m : Memory) (a k : Nat) (bs : List Byte) (hk : k < bs.length) :
    Cells.get (resetByte c) (Memory.place c m a bs) (a + k) = bs[k] := by
  induction bs generalizing m a k with
  | nil => exact absurd hk (Nat.not_lt_zero k)
  | cons b bs ih =>
    rw [Memory.place]
    cases k with
    | zero =>
      rw [Memory.get_place_of_outside _ _ _ _ _ (by omega), Cells.get_set]
      simp
    | succ k =>
      have := ih (Cells.set (resetByte c) m a b) (a + 1) k (by simpa using hk)
      rw [Nat.add_assoc, Nat.add_comm 1 k] at this
      simpa using this

/-- Placing a program that fits keeps memory in its canonical form. -/
theorem Memory.place_wf (c : Cfg) (m : Memory) (a : Nat) (bs : List Byte) (ha : a + bs.length ≤ c.memSize)
    (h : Memory.wf c m = true) : Memory.wf c (Memory.place c m a bs) = true := by
  induction bs generalizing m a with
  | nil => exact h
  | cons b bs ih =>
    simp only [List.length_cons] at ha
    exact ih _ _ (by omega) (Cells.canonical_set _ _ _ _ _ (by omega) h)

theorem regionsOverlap_iff (c : RawCfg) (n : Nat) :
    regionsOverlap c n = true ↔
      0 < n ∧ c.fontOffset < c.programOffset + n ∧ c.programOffset < c.fontOffset + fontLength := by
  rw [regionsOverlap, decide_eq_true_iff]

theorem isNonNegative_iff (r : HostReal) : isNonNegative r = true ↔ ∃ q, r = .finite q ∧ 0 ≤ q := by
  cases r <;> simp [isNonNegative]

/-- A `Load` whose checks raise nothing leaves the loaded state. -/
theorem load_of_no_fault (c : RawCfg) (program : List Byte) (s : State)
    (h : loadFault c program.length = none) : load c program s = loadedState (latch c) program s.draws := by
  unfold load
  rw [h]

/-- A `Load` whose checks raise `f` leaves the failed state. -/
theorem load_of_fault (c : RawCfg) (program : List Byte) (s : State) (f : Fault)
    (h : loadFault c program.length = some f) : load c program s = loadFailedState s f := by
  unfold load
  rw [h]

/-- Latching what the host hands over of a checked configuration gives it back. -/
@[simp] theorem latch_rawOf (c : Cfg) : latch (rawOf c) = c := rfl

end Sys2Proof.Machine
end

