-- ==== Sys2Proof/Laws/PerInstr.lean ====
section
/-! SUPPORT. Statements made of every instruction, one lemma per constructor. -/

namespace Sys2Proof.Laws

/-! ### The fixed bits of a packed word -/

theorem packNNN_and (op : BitVec 4) (nnn : Addr12) : packNNN op nnn &&& 0xF000 = op ++ (0 : BitVec 12) := by
  change (op ++ nnn) &&& (BitVec.allOnes 4 ++ (0 : BitVec 12)) = _
  rw [BitVec.and_append]
  simp only [BitVec.and_allOnes, BitVec.and_zero, BitVec.ofNat_eq_ofNat]

theorem packXNN_and_op (op : BitVec 4) (x : Reg) (nn : Byte) :
    packXNN op x nn &&& 0xF000 = op ++ (0 : BitVec 4) ++ (0 : BitVec 8) := by
  change (op ++ regBits x ++ nn) &&& (BitVec.allOnes 4 ++ (0 : BitVec 4) ++ (0 : BitVec 8)) = _
  rw [BitVec.and_append, BitVec.and_append]
  simp only [BitVec.and_allOnes, BitVec.and_zero, BitVec.ofNat_eq_ofNat]

theorem packXNN_and_ends (op : BitVec 4) (x : Reg) (nn : Byte) :
    packXNN op x nn &&& 0xF0FF = op ++ (0 : BitVec 4) ++ nn := by
  change (op ++ regBits x ++ nn) &&& (BitVec.allOnes 4 ++ (0 : BitVec 4) ++ BitVec.allOnes 8) = _
  rw [BitVec.and_append, BitVec.and_append]
  simp only [BitVec.and_allOnes, BitVec.and_zero, BitVec.ofNat_eq_ofNat]

theorem packXYN_and_op (op : BitVec 4) (x y : Reg) (n : BitVec 4) :
    packXYN op x y n &&& 0xF000 = op ++ (0 : BitVec 4) ++ (0 : BitVec 4) ++ (0 : BitVec 4) := by
  change (op ++ regBits x ++ regBits y ++ n) &&&
    (BitVec.allOnes 4 ++ (0 : BitVec 4) ++ (0 : BitVec 4) ++ (0 : BitVec 4)) = (_ : BitVec (4 + 4 + 4 + 4))
  rw [BitVec.and_append, BitVec.and_append, BitVec.and_append]
  simp only [BitVec.and_allOnes, BitVec.and_zero, BitVec.ofNat_eq_ofNat]

theorem packXYN_and_ends (op : BitVec 4) (x y : Reg) (n : BitVec 4) :
    packXYN op x y n &&& 0xF00F = op ++ (0 : BitVec 4) ++ (0 : BitVec 4) ++ n := by
  change (op ++ regBits x ++ regBits y ++ n) &&&
    (BitVec.allOnes 4 ++ (0 : BitVec 4) ++ (0 : BitVec 4) ++ BitVec.allOnes 4) = (_ : BitVec (4 + 4 + 4 + 4))
  rw [BitVec.and_append, BitVec.and_append, BitVec.and_append]
  simp only [BitVec.and_allOnes, BitVec.and_zero, BitVec.ofNat_eq_ofNat]

/-! ### Every instruction's word is a word of its row -/

/-- The columns `mask` and `match` of the opcode map (spec 30_encoding.md R51). -/
def opcodeRow : Instr → Word × Word
  | .cls => (0xFFFF, 0x00E0)
  | .ret => (0xFFFF, 0x00EE)
  | .jp _ => (0xF000, 0x1000)
  | .call _ => (0xF000, 0x2000)
  | .seByte _ _ => (0xF000, 0x3000)
  | .sneByte _ _ => (0xF000, 0x4000)
  | .seReg _ _ => (0xF00F, 0x5000)
  | .ldByte _ _ => (0xF000, 0x6000)
  | .addByte _ _ => (0xF000, 0x7000)
  | .ldReg _ _ => (0xF00F, 0x8000)
  | .orReg _ _ => (0xF00F, 0x8001)
  | .andReg _ _ => (0xF00F, 0x8002)
  | .xorReg _ _ => (0xF00F, 0x8003)
  | .addReg _ _ => (0xF00F, 0x8004)
  | .subReg _ _ => (0xF00F, 0x8005)
  | .shrReg _ _ => (0xF00F, 0x8006)
  | .subnReg _ _ => (0xF00F, 0x8007)
  | .shlReg _ _ => (0xF00F, 0x800E)
  | .sneReg _ _ => (0xF00F, 0x9000)
  | .ldI _ => (0xF000, 0xA000)
  | .jpV0 _ => (0xF000, 0xB000)
  | .rnd _ _ => (0xF000, 0xC000)
  | .drw _ _ _ => (0xF000, 0xD000)
  | .skp _ => (0xF0FF, 0xE09E)
  | .sknp _ => (0xF0FF, 0xE0A1)
  | .ldVxDT _ => (0xF0FF, 0xF007)
  | .ldVxK _ => (0xF0FF, 0xF00A)
  | .ldDTVx _ => (0xF0FF, 0xF015)
  | .ldSTVx _ => (0xF0FF, 0xF018)
  | .addI _ => (0xF0FF, 0xF01E)
  | .ldF _ => (0xF0FF, 0xF029)
  | .ldB _ => (0xF0FF, 0xF033)
  | .storeBlock _ => (0xF0FF, 0xF055)
  | .loadBlock _ => (0xF0FF, 0xF065)

namespace EncodeMatchesRow

/-- The word of the instruction has the fixed bits of its row: `(w & mask) = match` (R51). -/
def Statement (i : Instr) : Prop := encode i &&& (opcodeRow i).1 = (opcodeRow i).2

theorem cls : Statement .cls := by
  unfold Statement
  decide
theorem ret : Statement .ret := by
  unfold Statement
  decide
theorem jp (nnn : Addr12) : Statement (.jp nnn) := packNNN_and _ _
theorem call (nnn : Addr12) : Statement (.call nnn) := packNNN_and _ _
theorem seByte (x : Reg) (nn : Byte) : Statement (.seByte x nn) := packXNN_and_op _ _ _
theorem sneByte (x : Reg) (nn : Byte) : Statement (.sneByte x nn) := packXNN_and_op _ _ _
theorem seReg (x y : Reg) : Statement (.seReg x y) := packXYN_and_ends _ _ _ _
theorem ldByte (x : Reg) (nn : Byte) : Statement (.ldByte x nn) := packXNN_and_op _ _ _
theorem addByte (x : Reg) (nn : Byte) : Statement (.addByte x nn) := packXNN_and_op _ _ _
theorem ldReg (x y : Reg) : Statement (.ldReg x y) := packXYN_and_ends _ _ _ _
theorem orReg (x y : Reg) : Statement (.orReg x y) := packXYN_and_ends _ _ _ _
theorem andReg (x y : Reg) : Statement (.andReg x y) := packXYN_and_ends _ _ _ _
theorem xorReg (x y : Reg) : Statement (.xorReg x y) := packXYN_and_ends _ _ _ _
theorem addReg (x y : Reg) : Statement (.addReg x y) := packXYN_and_ends _ _ _ _
theorem subReg (x y : Reg) : Statement (.subReg x y) := packXYN_and_ends _ _ _ _
theorem shrReg (x y : Reg) : Statement (.shrReg x y) := packXYN_and_ends _ _ _ _
theorem subnReg (x y : Reg) : Statement (.subnReg x y) := packXYN_and_ends _ _ _ _
theorem shlReg (x y : Reg) : Statement (.shlReg x y) := packXYN_and_ends _ _ _ _
theorem sneReg (x y : Reg) : Statement (.sneReg x y) := packXYN_and_ends _ _ _ _
theorem ldI (nnn : Addr12) : Statement (.ldI nnn) := packNNN_and _ _
theorem jpV0 (nnn : Addr12) : Statement (.jpV0 nnn) := packNNN_and _ _
theorem rnd (x : Reg) (nn : Byte) : Statement (.rnd x nn) := packXNN_and_op _ _ _
theorem drw (x y : Reg) (n : Nat) : Statement (.drw x y n) := packXYN_and_op _ _ _ _
theorem skp (x : Reg) : Statement (.skp x) := packXNN_and_ends _ _ _
theorem sknp (x : Reg) : Statement (.sknp x) := packXNN_and_ends _ _ _
theorem ldVxDT (x : Reg) : Statement (.ldVxDT x) := packXNN_and_ends _ _ _
theorem ldVxK (x : Reg) : Statement (.ldVxK x) := packXNN_and_ends _ _ _
theorem ldDTVx (x : Reg) : Statement (.ldDTVx x) := packXNN_and_ends _ _ _
theorem ldSTVx (x : Reg) : Statement (.ldSTVx x) := packXNN_and_ends _ _ _
theorem addI (x : Reg) : Statement (.addI x) := packXNN_and_ends _ _ _
theorem ldF (x : Reg) : Statement (.ldF x) := packXNN_and_ends _ _ _
theorem ldB (x : Reg) : Statement (.ldB x) := packXNN_and_ends _ _ _
theorem storeBlock (x : Reg) : Statement (.storeBlock x) := packXNN_and_ends _ _ _
theorem loadBlock (x : Reg) : Statement (.loadBlock x) := packXNN_and_ends _ _ _

end EncodeMatchesRow

end Sys2Proof.Laws
end

