-- ==== Sys2Proof/Laws/Step.lean ====
section
/-! SUPPORT. What a step can do, said once. -/

namespace Sys2Proof.Machine

open Sys2Proof.Config

theorem State.notReady_eq_none (s : State) : s.notReady = none ↔ s.engine = .ready := by
  unfold State.notReady
  cases s.engine <;> simp

/-- A step of a `Ready` engine whose fetched word decodes is the instruction's meaning, after the advance. -/
theorem step_of_decoded (s : State) (i : Instr) (h : s.engine = .ready) (hi : s.fetchInstr = .ok i) :
    step s = exec i s.advancePC := by
  unfold step
  rw [s.notReady_eq_none.mpr h, hi]

/-- A step of a `Ready` engine whose fetched word does not decode raises the fault of that word. -/
theorem step_of_rejected (s : State) (e : Reject) (h : s.engine = .ready) (he : s.fetchInstr = .error e) :
    step s = raiseUnsupported s.fetchWord s.advancePC := by
  unfold step
  rw [s.notReady_eq_none.mpr h, he]

/-- The two ways in which a step answers a next state. -/
theorem step_cases (s t : State) (h : step s = .next t) :
    s.engine = .ready ∧
      ((∃ i, s.fetchInstr = .ok i ∧ exec i s.advancePC = .next t) ∨
        (∃ e, s.fetchInstr = .error e ∧ raiseUnsupported s.fetchWord s.advancePC = .next t)) := by
  unfold step at h
  split at h
  · cases h
  · rename_i hn
    refine ⟨s.notReady_eq_none.mp hn, ?_⟩
    split at h
    · exact .inl ⟨_, by assumption, h⟩
    · exact .inr ⟨_, by assumption, h⟩

/-- The two ways in which a return ends. -/
theorem execRet_cases (s t : State) (h : execRet s = .next t) :
    (∃ a rest, s.stack = a :: rest ∧ t = { s with pc := a, stack := rest }) ∨
      (s.stack = [] ∧ t = s.enterFault (.stackUnderflow s.instrAddr (encode .ret))) := by
  unfold execRet at h
  split at h <;> rename_i hp
  · obtain ⟨rest, hs, rfl⟩ := (s.pop_eq_some _ _).mp hp
    cases h
    exact .inl ⟨_, rest, hs, rfl⟩
  · cases h
    exact .inr ⟨s.pop_eq_none.mp hp, rfl⟩

/-- The two ways in which a call ends. -/
theorem execCall_cases (nnn : Addr12) (s t : State) (h : execCall nnn s = .next t) :
    (s.stack.length < s.cfg.stackDepth ∧ t = { s with pc := zext12 nnn, stack := s.pc :: s.stack }) ∨
      (¬ s.stack.length < s.cfg.stackDepth ∧
        t = s.enterFault (.stackOverflow s.instrAddr (encode (.call nnn)))) := by
  unfold execCall at h
  split at h <;> rename_i hp
  · obtain ⟨hl, rfl⟩ := (s.push_eq_some _ _).mp hp
    cases h
    exact .inl ⟨hl, rfl⟩
  · cases h
    refine .inr ⟨fun hl => ?_, rfl⟩
    rw [(s.push_eq_some _ s.pc).mpr ⟨hl, rfl⟩] at hp
    cases hp

/-- The two ways in which a key wait ends. -/
theorem execLdVxK_cases (x : Reg) (s t : State) (h : execLdVxK x s = .next t) :
    (∃ k, s.firstKey = some k ∧ t = s.writeV x (BitVec.ofNat 8 k.val)) ∨
      (s.firstKey = none ∧ t = s.rewindPC) := by
  unfold execLdVxK at h
  split at h <;> rename_i hk <;> cases h
  · exact .inl ⟨_, hk, rfl⟩
  · exact .inr ⟨hk, rfl⟩

/-- Every instruction answers a next state, in every state. -/
theorem exec_next (i : Instr) (s : State) : ∃ t, exec i s = .next t := by
  cases i
  case ret =>
    simp only [exec, execRet]
    split <;> exact ⟨_, rfl⟩
  case call =>
    simp only [exec, execCall]
    split <;> exact ⟨_, rfl⟩
  case ldVxK =>
    simp only [exec, execLdVxK]
    split <;> exact ⟨_, rfl⟩
  all_goals exact ⟨_, rfl⟩

/-- Key writes change the key slots and nothing else. -/
theorem State.applyKeys_frame (s : State) (ws : List KeyWrite) :
    s.applyKeys ws = { s with keys := (s.applyKeys ws).keys } := by
  induction ws generalizing s with
  | nil => rfl
  | cons w ws ih =>
    rw [State.applyKeys, ih (s.setKeySlot w.key w.pressed)]
    rfl

end Sys2Proof.Machine
end

