-- ==== Sys2Proof/Laws/Words.lean ====
section
/-! SUPPORT. The words and sprites of the statements, in the terms of the encoder and of the drawing
operations. -/

namespace Sys2Proof.Spec

open Sys2Proof.Machine

theorem wordNNN_eq (op : BitVec 4) (nnn : Addr12) : wordNNN op.toNat nnn = packNNN op nnn := by
  apply BitVec.eq_of_toNat_eq
  rw [packNNN_toNat, wordNNN, BitVec.toNat_ofNat]
  omega

theorem wordXNN_eq (op : BitVec 4) (x : Reg) (nn : Byte) : wordXNN op.toNat x nn.toNat = packXNN op x nn := by
  apply BitVec.eq_of_toNat_eq
  rw [packXNN_toNat, wordXNN, BitVec.toNat_ofNat]
  omega

theorem wordXYN_eq (op : BitVec 4) (x y : Reg) (n : BitVec 4) : wordXYN op.toNat x y n.toNat = packXYN op x y n := by
  apply BitVec.eq_of_toNat_eq
  rw [packXYN_toNat, wordXYN, BitVec.toNat_ofNat]
  omega

/-- The pixels that drawing toggles are the sprite's, whatever registers have changed since the position was
read. -/
theorem toggled_eq_spriteHits (s s' : State) (x y : Reg) (n : Nat) (hc : s'.cfg = s.cfg) (hi : s'.i = s.i)
    (hm : s'.mem = s.mem) :
    ((List.range n).flatMap fun r =>
      rowHits s'.cfg (s.readV x).toNat (((s.readV y).toNat + r) % s'.cfg.displayHeight)
        (s'.memRead (s'.elementAddr r)) 8) = spriteHits s x y n := by
  unfold spriteHits rowHits
  congr 1
  funext r
  have hr : s'.memRead (s'.elementAddr r) = s.memRead (s.i.toNat + r) := by
    simp only [State.memRead, State.elementAddr, hc, hi, hm]
  rw [hr, hc]
  congr 1
  apply List.filter_congr
  intro c _
  rw [spriteBit, BitVec.getLsbD, Nat.testBit_eq_decide_div_mod_eq]

theorem spriteHits_in_range (s : State) (x y : Reg) (n : Nat) (hw : 1 ≤ s.cfg.displayWidth)
    (hh : 1 ≤ s.cfg.displayHeight) :
    ∀ p ∈ spriteHits s x y n, p.1 < s.cfg.displayWidth ∧ p.2 < s.cfg.displayHeight := by
  intro p hp
  simp only [spriteHits, List.mem_flatMap, List.mem_map] at hp
  obtain ⟨_, _, _, _, rfl⟩ := hp
  exact ⟨Nat.mod_lt _ hw, Nat.mod_lt _ hh⟩

end Sys2Proof.Spec
end

