-- ==== Sys2Proof/Tests/Slice0.lean ====
section
/-! SUPPORT. Tests.  Every expected value comes from spec/: the encodings of opcode_table.json, the vectors of
95_test_vectors.md (their ids stand in the comments).  Then the witnesses: for each obligation with
hypotheses, states and operands that meet them. -/

namespace Sys2Proof.Tests

open Sys2Proof Sys2Proof.Config Sys2Proof.Machine Sys2Proof.Spec

/-! ## WellFormed -/

/-- The row count does not fit the 4-bit field `N` (R50). -/
theorem test_wellFormed_rowCount_too_big : (Instr.drw 0 0 16).wellFormed = false := by decide

theorem test_wellFormed_rowCount_greatest : (Instr.drw 0 0 15).wellFormed = true := by decide

/-! ## Decode: every row of the opcode table, its word written out bit by bit from column `encoding` -/

theorem test_decode_cls : decode 0b0000000011100000 = .ok .cls := by decide
theorem test_decode_ret : decode 0b0000000011101110 = .ok .ret := by decide
theorem test_decode_jp : decode 0b0001110100101110 = .ok (.jp 0xD2E) := by decide
theorem test_decode_call : decode 0b0010110100101110 = .ok (.call 0xD2E) := by decide
theorem test_decode_seByte : decode 0b0011101011000100 = .ok (.seByte 10 0xC4) := by decide
theorem test_decode_sneByte : decode 0b0100101011000100 = .ok (.sneByte 10 0xC4) := by decide
theorem test_decode_seReg : decode 0b0101101010110000 = .ok (.seReg 10 11) := by decide
theorem test_decode_ldByte : decode 0b0110101011000100 = .ok (.ldByte 10 0xC4) := by decide
theorem test_decode_addByte : decode 0b0111101011000100 = .ok (.addByte 10 0xC4) := by decide
theorem test_decode_ldReg : decode 0b1000101010110000 = .ok (.ldReg 10 11) := by decide
theorem test_decode_orReg : decode 0b1000101010110001 = .ok (.orReg 10 11) := by decide
theorem test_decode_andReg : decode 0b1000101010110010 = .ok (.andReg 10 11) := by decide
theorem test_decode_xorReg : decode 0b1000101010110011 = .ok (.xorReg 10 11) := by decide
theorem test_decode_addReg : decode 0b1000101010110100 = .ok (.addReg 10 11) := by decide
theorem test_decode_subReg : decode 0b1000101010110101 = .ok (.subReg 10 11) := by decide
theorem test_decode_shrReg : decode 0b1000101010110110 = .ok (.shrReg 10 11) := by decide
theorem test_decode_subnReg : decode 0b1000101010110111 = .ok (.subnReg 10 11) := by decide
theorem test_decode_shlReg : decode 0b1000101010111110 = .ok (.shlReg 10 11) := by decide
theorem test_decode_sneReg : decode 0b1001101010110000 = .ok (.sneReg 10 11) := by decide
theorem test_decode_ldI : decode 0b1010110100101110 = .ok (.ldI 0xD2E) := by decide
theorem test_decode_jpV0 : decode 0b1011110100101110 = .ok (.jpV0 0xD2E) := by decide
theorem test_decode_rnd : decode 0b1100101011000100 = .ok (.rnd 10 0xC4) := by decide
theorem test_decode_drw : decode 0b1101101010110101 = .ok (.drw 10 11 5) := by decide
theorem test_decode_skp : decode 0b1110101010011110 = .ok (.skp 10) := by decide
theorem test_decode_sknp : decode 0b1110101010100001 = .ok (.sknp 10) := by decide
theorem test_decode_ldVxDT : decode 0b1111101000000111 = .ok (.ldVxDT 10) := by decide
theorem test_decode_ldVxK : decode 0b1111101000001010 = .ok (.ldVxK 10) := by decide
theorem test_decode_ldDTVx : decode 0b1111101000010101 = .ok (.ldDTVx 10) := by decide
theorem test_decode_ldSTVx : decode 0b1111101000011000 = .ok (.ldSTVx 10) := by decide
theorem test_decode_addI : decode 0b1111101000011110 = .ok (.addI 10) := by decide
theorem test_decode_ldF : decode 0b1111101000101001 = .ok (.ldF 10) := by decide
theorem test_decode_ldB : decode 0b1111101000110011 = .ok (.ldB 10) := by decide
theorem test_decode_storeBlock : decode 0b1111101001010101 = .ok (.storeBlock 10) := by decide
theorem test_decode_loadBlock : decode 0b1111101001100101 = .ok (.loadBlock 10) := by decide

/-- T30-2, T30-3, T30-4, T30-6, T30-8, T30-10, T30-12, T30-14: words of no row. -/
theorem test_decode_rejects :
    [0x00E1, 0x0000, 0x00FF, 0x00C1, 0x0123, 0x5AB1, 0x8AB8, 0x8ABF, 0x9ABF, 0xE19F, 0xE000, 0xF066, 0xF000,
      0xF175, 0xF030].all (fun w : Word => decode w = .error (.unsupportedOpcode w)) = true := by decide

/-- R46: two bytes, high byte first; a single byte is no instruction. -/
theorem test_decodeBytes : decodeBytes [0x6A, 0x05, 0x7A] = .ok (.ldByte 10 0x05, [0x7A]) ∧
    decodeBytes [0x6A] = .error .truncated := by decide

/-- R47, S1: the fields of `8AB4`. -/
theorem test_fields : fields 0x8AB4 = ⟨8, 0xA, 0xB, 4, 0xB4, 0xAB4⟩ := by decide

theorem test_encodeBytes : encodeBytes (.drw 1 2 5) = [0xD1, 0x25] := by decide

/-! ## One step -/

/-- A state with some registers set. -/
def withRegs (s : State) (rs : List (Reg × Byte)) : State := rs.foldl (fun s r => s.writeV r.1 r.2) s

/-- The reset state under another configuration. -/
def under (c : Cfg) : State := State.afterLoad c 0

/-- A field of the state after one step of the word `w` from `s`; nothing where the step answers no next
state. -/
def after {α : Type} (w : Nat) (s : State) (f : State → α) : Option α :=
  match step (s.withFetchWord 16 w) with
  | .next t => some (f t)
  | _       => none

/-! ### Display -/

/-- T44-1 -/
theorem test_cls : after 0x00E0 (State.reset.pixWrite 3 4 true) (fun t => (t.pixRead 3 4, t.dirty, t.pc)) = some (false, true, 0x202) := by decide

/-- T44-2: the corner pixel and the one it wraps to -/
theorem test_drw_wraps : after 0xD121 ((withRegs State.reset [(1, 0x3F), (2, 0x1F)]).setI 0x300 |>.memWrite 0x300 0xC0) (fun t => (t.pixRead 63 31, t.pixRead 0 31, t.pixRead 1 31, t.readV 15, t.dirty)) = some (true, true, false, 0, true) := by decide

/-- T44-4 -/
theorem test_drw_collides : after 0xD121 ((withRegs State.reset [(1, 0x3F), (2, 0x1F), (15, 9)]).setI 0x300 |>.memWrite 0x300 0xC0 |>.pixWrite 0 31 true) (fun t => (t.pixRead 63 31, t.pixRead 0 31, t.readV 15)) = some (true, false, 1) := by decide

/-! ### Control transfer -/

/-- S12: back to the call's address plus 2 -/
theorem test_ret : after 0x00EE { State.reset with stack := [0x0202, 0x0ABC] } (fun t => (t.pc, t.stack)) = some (0x0202, [0x0ABC]) := by decide

/-- P6 (a) -/
theorem test_ret_underflow : after 0x00EE State.reset (fun t => (t.engine, t.fault, t.pc)) = some (.faulted, some (.stackUnderflow 0x200 0x00EE), 0x202) := by decide

/-- S10 -/
theorem test_jp : after 0x1ABC State.reset (fun t => t.pc) = some 0x0ABC := by decide

/-- S12 -/
theorem test_call : after 0x2300 State.reset (fun t => (t.pc, t.stack)) = some (0x0300, [0x0202]) := by decide

/-- P5 -/
theorem test_call_overflow : after 0x2200 { State.reset with stack := List.replicate 16 0x0202 } (fun t => (t.fault, t.pc, t.stack.length)) = some (some (.stackOverflow 0x200 0x2200), 0x202, 16) := by decide

/-- T41-7 -/
theorem test_seByte : after 0x332A (withRegs State.reset [(3, 0x2A)]) (fun t => t.pc) = some 0x204 := by decide

/-- T41-7 -/
theorem test_seByte_not : after 0x332A (withRegs State.reset [(3, 0x2B)]) (fun t => t.pc) = some 0x202 := by decide

/-- T41-8 -/
theorem test_sneByte : after 0x432A (withRegs State.reset [(3, 0x00)]) (fun t => t.pc) = some 0x204 := by decide

/-- T41-8 -/
theorem test_sneByte_not : after 0x432A (withRegs State.reset [(3, 0x2A)]) (fun t => t.pc) = some 0x202 := by decide

/-- T41-9 -/
theorem test_seReg : after 0x5120 (withRegs State.reset [(1, 7), (2, 7)]) (fun t => t.pc) = some 0x204 := by decide

/-- T41-9 -/
theorem test_seReg_not : after 0x5120 (withRegs State.reset [(1, 7), (2, 8)]) (fun t => t.pc) = some 0x202 := by decide

/-- T41-10 -/
theorem test_sneReg : after 0x9120 (withRegs State.reset [(1, 7), (2, 8)]) (fun t => t.pc) = some 0x204 := by decide

/-- T41-10 -/
theorem test_sneReg_not : after 0x9120 (withRegs State.reset [(1, 7), (2, 7)]) (fun t => t.pc) = some 0x202 := by decide

/-- T41-12, `JUMP_USES_VX` false -/
theorem test_jpV0 : after 0xB2F0 (withRegs State.reset [(0, 4), (2, 0x10)]) (fun t => t.pc) = some 0x2F4 := by decide

/-- T41-12, `JUMP_USES_VX` true -/
theorem test_jpV0_vx : after 0xB2F0 (withRegs (under { Cfg.usual with jumpUsesVX := true }) [(0, 4), (2, 0x10)]) (fun t => t.pc) = some 0x300 := by decide

/-! ### Arithmetic, logic, shifts, random -/

/-- T42-1 -/
theorem test_ldByte : after 0x6A05 State.reset (fun t => (t.readV 10, t.pc)) = some (5, 0x202) := by decide

/-- T42-3: no carry is recorded -/
theorem test_addByte_wraps : after 0x7001 (withRegs State.reset [(0, 0xFF)]) (fun t => (t.readV 0, t.readV 15)) = some (0, 0) := by decide

/-- T42-5 -/
theorem test_ldReg : after 0x8010 (withRegs State.reset [(1, 0x33)]) (fun t => t.readV 0) = some 0x33 := by decide

/-- T42-6 -/
theorem test_orReg : after 0x8011 (withRegs State.reset [(0, 0xF0), (1, 0x0F), (15, 1)]) (fun t => (t.readV 0, t.readV 15)) = some (0xFF, 1) := by decide

/-- T42-7 -/
theorem test_andReg : after 0x8012 (withRegs State.reset [(0, 0xF0), (1, 0x3C)]) (fun t => t.readV 0) = some 0x30 := by decide

/-- T42-8 -/
theorem test_xorReg : after 0x8013 (withRegs State.reset [(0, 0xF0), (1, 0x3C)]) (fun t => t.readV 0) = some 0xCC := by decide

/-- T42-16 -/
theorem test_addReg_carry : after 0x8124 (withRegs State.reset [(1, 0xC8), (2, 0x64)]) (fun t => (t.readV 1, t.readV 15)) = some (0x2C, 1) := by decide

/-- T42-14 -/
theorem test_addReg_flag_wins : after 0x8F14 (withRegs State.reset [(15, 0xFF), (1, 2)]) (fun t => t.readV 15) = some 1 := by decide

/-- T42-17 -/
theorem test_subReg_borrow : after 0x8015 (withRegs State.reset [(0, 5), (1, 0x0A)]) (fun t => (t.readV 0, t.readV 15)) = some (0xFB, 0) := by decide

/-- T42-18 -/
theorem test_subReg_equal : after 0x8015 (withRegs State.reset [(0, 7), (1, 7)]) (fun t => (t.readV 0, t.readV 15)) = some (0, 1) := by decide

/-- T42-22 -/
theorem test_subnReg : after 0x8017 (withRegs State.reset [(0, 3), (1, 0x0A)]) (fun t => (t.readV 0, t.readV 15)) = some (7, 1) := by decide

/-- T42-21 -/
theorem test_subnReg_borrow : after 0x8017 (withRegs State.reset [(0, 0x0A), (1, 3)]) (fun t => (t.readV 0, t.readV 15)) = some (0xF9, 0) := by decide

/-- T42-25, `SHIFT_USES_VY` false -/
theorem test_shrReg : after 0x8126 (withRegs State.reset [(1, 5), (2, 0xF0)]) (fun t => (t.readV 1, t.readV 15)) = some (2, 1) := by decide

/-- T42-25, `SHIFT_USES_VY` true -/
theorem test_shrReg_vy : after 0x8126 (withRegs (under { Cfg.usual with shiftUsesVY := true }) [(1, 5), (2, 0xF0)]) (fun t => (t.readV 1, t.readV 15)) = some (0x78, 0) := by decide

/-- T42-27, `SHIFT_USES_VY` false -/
theorem test_shlReg : after 0x801E (withRegs State.reset [(0, 0x80), (1, 0x41)]) (fun t => (t.readV 0, t.readV 15)) = some (0, 1) := by decide

/-- T42-27, `SHIFT_USES_VY` true -/
theorem test_shlReg_vy : after 0x801E (withRegs (under { Cfg.usual with shiftUsesVY := true }) [(0, 0x80), (1, 0x41)]) (fun t => (t.readV 0, t.readV 15)) = some (0x82, 0) := by decide

/-- T42-31, for whatever byte is drawn. -/
theorem test_rnd : after 0xC0F0 State.reset (fun t => t.readV 0) = some (rndByte 0 &&& 0xF0) := rfl

/-- T42-32. -/
theorem test_rnd_masked_to_zero : after 0xC000 State.reset (fun t => t.readV 0) = some 0 := by
  change some (rndByte 0 &&& 0#8) = some 0#8
  rw [BitVec.and_zero]

/-! ### Index register and memory -/

/-- T43-1 -/
theorem test_ldI : after 0xAFFF State.reset (fun t => t.i) = some 0x0FFF := by decide

/-- T43-2, `ADDI_OVERFLOW_VF` false -/
theorem test_addI : after 0xF11E ((withRegs State.reset [(1, 5), (15, 7)]).setI 0x0FFE) (fun t => (t.i, t.readV 15)) = some (0x1003, 7) := by decide

/-- T43-5: the old `VF` is added, then the flag is written -/
theorem test_addI_overflow : after 0xFF1E ((withRegs (under { Cfg.usual with addiOverflowVF := true }) [(15, 1)]).setI 0x0FFF) (fun t => (t.i, t.readV 15)) = some (0x1000, 1) := by decide

/-- T43-8 -/
theorem test_ldF : after 0xF029 (withRegs State.reset [(0, 0x1A)]) (fun t => t.i) = some 0x0082 := by decide

/-- T43-9 -/
theorem test_ldB_wraps : after 0xF033 ((withRegs State.reset [(0, 0xFF)]).setI 0x0FFF) (fun t => (t.memRead 0xFFF, t.memRead 0, t.memRead 1, t.i)) = some (2, 5, 5, 0x0FFF) := by decide

/-- T43-12, `MEM_INCREMENTS_I` true -/
theorem test_storeBlock_wraps : after 0xF255 ((withRegs (under { Cfg.usual with memIncrementsI := true }) [(0, 0x11), (1, 0x22), (2, 0x33)]).setI 0x0FFF) (fun t => (t.memRead 0xFFF, t.memRead 0, t.memRead 1, t.i)) = some (0x11, 0x22, 0x33, 0x1002) := by decide

/-- T43-11, `MEM_INCREMENTS_I` false -/
theorem test_storeBlock_keeps_I : after 0xF255 ((withRegs State.reset [(0, 0x11), (1, 0x22), (2, 0x33), (3, 0x44)]).setI 0x0300) (fun t => (t.memRead 0x302, t.memRead 0x303, t.i)) = some (0x33, 0, 0x0300) := by decide

/-- T43-16: the word itself, high byte at the lower address -/
theorem test_loadBlock : after 0xF165 (State.reset.setI 0x0200) (fun t => (t.readV 0, t.readV 1)) = some (0xF1, 0x65) := by decide

/-- T43-14, `MEM_INCREMENTS_I` true -/
theorem test_loadBlock_inclusive : after 0xF065 ((withRegs (under { Cfg.usual with memIncrementsI := true }) [(1, 0x77)]).setI 0x0300 |>.memWrite 0x300 0xAB) (fun t => (t.readV 0, t.readV 1, t.i)) = some (0xAB, 0x77, 0x0301) := by decide

/-! ### Keys and timers -/

/-- T45-1: the low nibble names the key -/
theorem test_skp : after 0xE09E ((withRegs State.reset [(0, 0x1A)]).setKeySlot 10 true) (fun t => t.pc) = some 0x204 := by decide

/-- T45-2 -/
theorem test_skp_released : after 0xE49E (withRegs State.reset [(4, 7)]) (fun t => t.pc) = some 0x202 := by decide

/-- T45-3 -/
theorem test_sknp : after 0xE0A1 (withRegs State.reset [(0, 5)]) (fun t => t.pc) = some 0x204 := by decide

/-- T45-4 -/
theorem test_sknp_pressed : after 0xE0A1 ((withRegs State.reset [(0, 5)]).setKeySlot 5 true) (fun t => t.pc) = some 0x202 := by decide

/-- T45-5 -/
theorem test_ldVxK_waits : after 0xF30A (withRegs State.reset [(3, 0x99)]) (fun t => (t.pc, t.readV 3)) = some (0x200, 0x99) := by decide

/-- T45-6 -/
theorem test_ldVxK_least : after 0xF30A (State.reset.setKeySlot 9 true |>.setKeySlot 4 true) (fun t => (t.pc, t.readV 3)) = some (0x202, 4) := by decide

/-- T45-10 -/
theorem test_ldVxDT : after 0xF507 (State.reset.setDT 0x2A) (fun t => (t.readV 5, t.dt)) = some (0x2A, 0x2A) := by decide

/-- T45-11 -/
theorem test_ldDTVx : after 0xF515 (withRegs State.reset [(5, 0x3C)]) (fun t => (t.dt, t.st)) = some (0x3C, 0) := by decide

/-- T45-12 -/
theorem test_ldSTVx : after 0xF518 (withRegs State.reset [(5, 3)]) (fun t => (t.dt, t.st)) = some (0, 3) := by decide

/-! ### Step, tick, update, load -/

/-- T30-2 -/
theorem test_illegal_word : after 0x00E1 State.reset (fun t => (t.engine, t.fault, t.pc)) = some (.faulted, some (.unsupportedOpcode 0x00E1 0x200), 0x202) := by decide

/-- T20-1: the low byte comes from address 0 -/
theorem test_fetch_wraps : after 0x6A05 (State.reset.setPC 0x0FFF) (fun t => (t.readV 10, t.pc, t.memRead 0)) = some (5, 0x1001, 5) := by decide

/-- S6. -/
theorem test_timerTick : ((State.reset.setST 5).timerTick.dt, (State.reset.setST 5).timerTick.st) = (0, 4) := by
  decide

/-- T40-1, T40-2, T40-3, T40-4. -/
theorem test_instructionCount : instructionCount 600 (33 / 2) = 9 ∧ instructionCount 250 20 = 5 ∧
    instructionCount 500 1 = 1 ∧ instructionCount 700 0 = 1 ∧ instructionCount 0 1000 = 1 ∧
    instructionCount 600 (-5) = 1 := by decide +kernel

/-- T70-1: a load of the usual configuration. -/
theorem test_load : ((load (rawOf Cfg.usual) [0x12, 0x00] State.reset).pc,
    [0x200, 0x201, 0x202, 0x04F, 0x050, 0x09F, 0x0A0].map (load (rawOf Cfg.usual) [0x12, 0x00] State.reset).memRead) =
    (0x200, [0x12, 0x00, 0x00, 0x00, 0xF0, 0x80, 0x00]) := by decide +kernel

/-- T70-2, T70-3, T70-4, T70-5. -/
theorem test_load_regions : loadFault (rawOf Cfg.usual) 3584 = none ∧
    loadFault (rawOf Cfg.usual) 3585 = some (.outOfMemory .program 0x200 3585 4096) ∧
    loadFault (rawOf { Cfg.usual with fontOffset := 4090 }) 2 = some (.outOfMemory .font 4090 80 4096) ∧
    loadFault (rawOf { Cfg.usual with fontOffset := 0x1F0 }) 2 = some (.invalidConfiguration .fontOffset) ∧
    loadFault (rawOf { Cfg.usual with fontOffset := 0x1F0 }) 0 = none := by decide +kernel

/-- T70-6, T70-7, T70-8, T70-9, T70-10. -/
theorem test_load_config : loadFault (rawOf { Cfg.usual with memSize := 0 }) 0 = some (.invalidConfiguration .memSize) ∧
    loadFault (rawOf { Cfg.usual with memSize := 65537 }) 0 = some (.invalidConfiguration .memSize) ∧
    loadFault (rawOf { Cfg.usual with programOffset := 4096 }) 0 = some (.invalidConfiguration .programOffset) ∧
    loadFault (rawOf { Cfg.usual with stackDepth := 0 }) 0 = some (.invalidConfiguration .stackDepth) ∧
    loadFault (rawOf { Cfg.usual with displayWidth := 0 }) 0 = some (.invalidConfiguration .displayWidth) ∧
    loadFault { rawOf Cfg.usual with fontVariant := none } 5000 = some (.invalidConfiguration .fontVariant) := by
  decide +kernel

/-- The reset state is a load of the usual configuration and no program, in any state. -/
theorem test_reset_is_load : load (rawOf Cfg.usual) [] State.reset = State.reset := by decide +kernel

theorem test_decodeTableWord : decodeTableWord 16 0xD125 = some (.drw 1 2 5) ∧ decodeTableWord 16 0x5AB1 = none := by
  decide

/-! ## Witnesses: the hypotheses of each obligation can be met, at boundary values -/

/-- The smallest configuration that is valid: RAM that the font just fills, one stack entry, one pixel, no
frequency. -/
def smallest : Cfg :=
  { Cfg.usual with
    memSize := 80, programOffset := 79, fontOffset := 0, stackDepth := 1, displayWidth := 1, displayHeight := 1,
    targetFreqInit := 0 }

/-- The greatest RAM, the font at its top. -/
def greatest : Cfg := { Cfg.usual with memSize := 65536, programOffset := 0, fontOffset := 65456 }

theorem witness_CfgValid : CfgValid smallest ∧ CfgValid Cfg.usual ∧ CfgValid greatest := by decide +kernel

/-- The reset state about to execute the word `w`. -/
def ready (w : Nat) : State := State.reset.withFetchWord 16 w

theorem witness_DecodeEncodeRoundTrip : (Instr.drw 15 15 15).wellFormed = true ∧ (Instr.drw 0 0 0).wellFormed = true ∧
    (Instr.jp 0xFFF).wellFormed = true := by decide

theorem witness_EncodeOfDecodedWord : decode 0xFF65 = .ok (.loadBlock 15) ∧ decode 0x1000 = .ok (.jp 0) := by decide

/-- One word of each line of the table of R52, at the edge of a legal row, and legal neighbours. -/
theorem witness_RejectedWordsAreTheIllegalOnes :
    ([0x0000, 0x00E1, 0x0FFF, 0x5AB1, 0x8AB8, 0x8ABD, 0x8ABF, 0x9AB1, 0xE09F, 0xFF66] : List Word).all
      (fun w => IllegalWord w) = true ∧
    ([0x00E0, 0x00EE, 0x1000, 0x5AB0, 0x8ABE, 0x9AB0, 0xDFFF, 0xEFA1, 0xF065] : List Word).all
      (fun w => ¬ IllegalWord w) = true := by decide

theorem witness_StepRunsTheFetchedInstruction : (ready 0x6A05).engine = .ready ∧
    decode ((ready 0x6A05).fetch16 (ready 0x6A05).pc.toNat) = .ok (.ldByte 10 5) ∧
    decode ((ready 0x5AB1).fetch16 (ready 0x5AB1).pc.toNat) = .error (.unsupportedOpcode 0x5AB1) := by decide

/-- The last fetch address: `PC` wraps to 1. -/
theorem witness_IllegalWordFaultsPrecisely :
    (State.reset.setPC 0xFFFF).engine = .ready ∧ (State.reset.setPC 0xFFFF).fetch16 0xFFFF = 0x0000 ∧
      IllegalWord 0x0000 := by
  decide

/-- A faulted and an unloaded engine. -/
def faulted : State := State.reset.enterFault (.unsupportedOpcode 0 0x200)

theorem witness_NotReadyIsRefused : faulted.engine ≠ .ready ∧ State.beforeLoad.engine ≠ .ready :=
  ⟨by decide, by rw [State.beforeLoad]; decide⟩

/-- The stack at capacity, and one below. -/
def fullStack (w : Nat) : State := { ready w with stack := List.replicate 16 0x0202 }
def almostFullStack (w : Nat) : State := { ready w with stack := List.replicate 15 0x0202 }

/-- The three stops and a step that is none of them. -/
theorem witness_ReadyEndsOnlyInTheThreeStepFaults :
    ((ready 0x0000).engine = .ready ∧ IllegalWord ((ready 0x0000).fetch16 0x200)) ∧
    ((fullStack 0x2300).engine = .ready ∧ decode ((fullStack 0x2300).fetch16 0x200) = .ok (.call 0x300) ∧
      (fullStack 0x2300).cfg.stackDepth ≤ (fullStack 0x2300).stack.length) ∧
    ((ready 0x00EE).engine = .ready ∧ decode ((ready 0x00EE).fetch16 0x200) = .ok .ret ∧ (ready 0x00EE).stack = []) ∧
    ((almostFullStack 0x2300).engine = .ready ∧ ¬ IllegalWord ((almostFullStack 0x2300).fetch16 0x200) ∧
      (almostFullStack 0x2300).stack.length < (almostFullStack 0x2300).cfg.stackDepth) := by
  decide

theorem witness_ReturnPopsIntoPC : (fullStack 0x00EE).stack = 0x0202 :: List.replicate 15 0x0202 ∧
    State.reset.stack = [] := by decide

theorem witness_CallPushesPC : (almostFullStack 0x2300).stack.length < (almostFullStack 0x2300).cfg.stackDepth ∧
    (fullStack 0x2300).stack.length = (fullStack 0x2300).cfg.stackDepth := by decide

/-- A call on a full stack and a return on an empty one, at the last address of the address range. -/
theorem witness_StackFaultsRecordTheirInstruction :
    ((fullStack 0x2300).engine = .ready ∧ (fullStack 0x2300).fetch16 (fullStack 0x2300).pc.toNat = wordNNN 0x2 0x300 ∧
      (fullStack 0x2300).stack.length = (fullStack 0x2300).cfg.stackDepth) ∧
    ((State.reset.setPC 0xFFFF).withFetchWord 16 0x00EE).engine = .ready ∧
    ((State.reset.setPC 0xFFFF).withFetchWord 16 0x00EE).fetch16 0xFFFF = 0x00EE ∧
    ((State.reset.setPC 0xFFFF).withFetchWord 16 0x00EE).stack = [] := by decide

theorem witness_InstructionBudget : (0 : Rat) ≤ 0 ∧ (-5 : Rat) < 0 ∧ State.reset.engine = .ready := by decide +kernel

theorem witness_SkipOnRegister : 0 < 1 ∧ 1 < 16 ∧ 0 < 15 ∧ 15 < 16 := by decide

theorem witness_JumpWithOffset :
    (0 : Reg).val = (if State.reset.cfg.jumpUsesVX then (0xFFF : Addr12).toNat / 0x100 else 0) ∧
    (15 : Reg).val =
      (if (under { Cfg.usual with jumpUsesVX := true }).cfg.jumpUsesVX then (0xFFF : Addr12).toNat / 0x100 else 0) := by
  decide

theorem witness_CallThenReturnComesBack :
    (almostFullStack 0x2300).stack.length < (almostFullStack 0x2300).cfg.stackDepth ∧
    ∃ t, exec (.call 0x300) (almostFullStack 0x2300) = .next t ∧ t.stack = t.stack :=
  ⟨by decide, _, rfl, rfl⟩

theorem witness_ShiftByOneBit :
    0xFF = (if State.reset.cfg.shiftUsesVY then (0 : Byte).toNat else ((withRegs State.reset [(0, 0xFF)]).readV 0).toNat) := by
  decide

theorem witness_AddToIndex : (under { Cfg.usual with addiOverflowVF := true }).cfg.addiOverflowVF = true ∧
    State.reset.cfg.addiOverflowVF = false := by decide

/-- Three digits and sixteen registers fit the smallest valid RAM. -/
theorem witness_DecimalDigitsToMemory : CfgValid (under smallest).cfg ∧ 3 ≤ smallest.memSize := by decide +kernel

theorem witness_StoreRegistersToMemory : CfgValid (under smallest).cfg ∧ CfgValid (under greatest).cfg ∧
    16 ≤ smallest.memSize := by decide +kernel

theorem witness_StoreIsSeenByTheNextFetch :
    CfgValid State.reset.cfg ∧ (State.reset.setI 0x200).pc = (State.reset.setI 0x200).i ∧
      ∃ t, exec (.storeBlock 1) (State.reset.setI 0x200) = .next t :=
  ⟨by decide +kernel, by decide, _, rfl⟩

theorem witness_DrawTogglesTheSpritePixels : CfgValid smallest ∧ 15 < 16 ∧
    spriteHits (under smallest) 0 1 1 = [(0, 0), (0, 0), (0, 0), (0, 0)] ∧
    spriteHits (State.reset.setI 0x50) 0 1 1 = [(0, 0), (1, 0), (2, 0), (3, 0)] ∧
    spriteHits State.reset 0 1 0 = [] := by decide +kernel

/-- Row `F0` of glyph 0 in the corner: its pixels are named once and are blank. -/
theorem witness_DrawingTwiceRestoresTheDisplay :
    CfgValid State.reset.cfg ∧ (0 : Reg) ≠ 15 ∧ (1 : Reg) ≠ 15 ∧
    spriteHits (State.reset.setI 0x50) 0 1 1 ≠ [] ∧ (spriteHits (State.reset.setI 0x50) 0 1 1).Nodup ∧
    (∀ p ∈ spriteHits (State.reset.setI 0x50) 0 1 1, (State.reset.setI 0x50).pixRead p.1 p.2 = false) ∧
    ∃ t u, exec (.drw 0 1 1) (State.reset.setI 0x50) = .next t ∧ exec (.drw 0 1 1) t = .next u :=
  ⟨by decide +kernel, by decide, by decide, by decide +kernel, by decide +kernel, by decide +kernel, _, _, rfl, rfl⟩

theorem witness_SkipOnKey : (0 : Key).val = (State.reset.readV 0).toNat % 16 ∧
    (15 : Key).val = ((withRegs State.reset [(0, 0xFF)]).readV 0).toNat % 16 := by decide

theorem witness_KeyWaitTakesTheLeastKey :
    ((State.reset.setKeySlot 15 true).readKey 15 = true ∧
      ∀ j < (15 : Key), (State.reset.setKeySlot 15 true).readKey j = false) ∧
    ((State.reset.setKeySlot 0 true).readKey 0 = true ∧
      ∀ j < (0 : Key), (State.reset.setKeySlot 0 true).readKey j = false) ∧
    ∀ k : Key, State.reset.readKey k = false := by decide

theorem witness_WaitingStepChangesNothing : (ready 0xF30A).engine = .ready ∧
    (ready 0xF30A).fetch16 (ready 0xF30A).pc.toNat = wordXNN 0xF 3 0x0A ∧
    ∀ k : Key, (ready 0xF30A).readKey k = false := by decide

/-- A jump to itself, for one frame of 20/3 milliseconds: a budget of 4. -/
theorem witness_UpdateRunsItsBudgetThenTicks : (ready 0x1200).engine = .ready ∧
    instructionCount (ready 0x1200).targetFreq (20 / 3) = 4 ∧
    StepsReady [] 4 { ready 0x1200 with dirty := false } (ready 0x1200) :=
  ⟨by decide, by decide +kernel, _, rfl, by decide, _, rfl, by decide, _, rfl, by decide, _, rfl, by decide, rfl⟩

/-- The first step of the frame faults (`k = 0`), and the last does (`k = 0` of a budget of 1). -/
theorem witness_FaultEndsTheUpdate : State.reset.engine = .ready ∧
    0 < instructionCount State.reset.targetFreq 20 ∧ instructionCount State.reset.targetFreq 0 = 1 ∧
    StepsReady [] 0 { State.reset with dirty := false } State.reset ∧
    ∃ u, step (State.reset.applyKeys (([] : List (List KeyWrite)).drop 0 |>.headD [])) = .next u ∧ u.engine = .faulted :=
  ⟨by decide, by decide +kernel, by decide +kernel, rfl, _, rfl, rfl⟩

/-- All ten checks hold of the usual configuration and a program of the greatest length, of the greatest RAM,
and of a RAM that the font fills. -/
theorem witness_LoadResetsEverything : ChecksHold 10 (rawOf Cfg.usual) 3584 ∧ ChecksHold 10 (rawOf greatest) 65456 ∧
    ChecksHold 10 (rawOf smallest) 0 := by
  refine ⟨?_, ?_, ?_⟩ <;>
    exact ⟨by decide, by decide, by decide, by decide, by decide, fun _ => ⟨_, rfl, by decide +kernel⟩, by decide, by decide, by decide,
      by decide⟩

/-- For each check, a configuration that meets those before it and fails it just beyond its bound. -/
theorem witness_LoadReportsTheFirstFailedCheck :
    ¬ ChecksHold 1 (rawOf { Cfg.usual with memSize := 0 }) 0 ∧
    ¬ ChecksHold 1 (rawOf { Cfg.usual with memSize := 65537 }) 0 ∧
    ¬ ChecksHold 2 (rawOf { Cfg.usual with programOffset := 4096 }) 0 ∧
    ¬ ChecksHold 3 (rawOf { Cfg.usual with fontOffset := 4096 }) 0 ∧
    ¬ ChecksHold 4 (rawOf { Cfg.usual with stackDepth := 0 }) 0 ∧
    ¬ 1 ≤ (rawOf { Cfg.usual with displayWidth := 0 }).displayWidth ∧
    ¬ 1 ≤ (rawOf { Cfg.usual with displayHeight := 0 }).displayHeight ∧
    ¬ ChecksHold 6 { rawOf Cfg.usual with targetFreqInit := .nonFinite } 0 ∧
    ¬ ChecksHold 7 { rawOf Cfg.usual with fontVariant := none } 0 ∧
    ¬ ChecksHold 8 (rawOf { Cfg.usual with fontOffset := 0x1B1 }) 1 ∧
    ¬ ChecksHold 9 (rawOf { Cfg.usual with fontOffset := 4017 }) 0 ∧
    ¬ ChecksHold 10 (rawOf Cfg.usual) 3585 := by
  simp [ChecksHold, rawOf, Cfg.usual]

theorem witness_LoadReportsTheFirstFailedCheck_before :
    ChecksHold 1 (rawOf { Cfg.usual with programOffset := 4096 }) 0 ∧
    ChecksHold 2 (rawOf { Cfg.usual with fontOffset := 4096 }) 0 ∧
    ChecksHold 3 (rawOf { Cfg.usual with stackDepth := 0 }) 0 ∧
    ChecksHold 4 (rawOf { Cfg.usual with displayWidth := 0 }) 0 ∧
    ChecksHold 4 (rawOf { Cfg.usual with displayHeight := 0 }) 0 ∧
    ChecksHold 5 { rawOf Cfg.usual with targetFreqInit := .nonFinite } 0 ∧
    ChecksHold 6 { rawOf Cfg.usual with fontVariant := none } 0 ∧
    ChecksHold 7 (rawOf { Cfg.usual with fontOffset := 0x1B1 }) 1 ∧
    ChecksHold 8 (rawOf { Cfg.usual with fontOffset := 4017 }) 0 ∧
    ChecksHold 9 (rawOf Cfg.usual) 3585 := by
  simp [ChecksHold, rawOf, Cfg.usual]

theorem witness_LoadEstablishesTheInvariant : ChecksHold 10 (rawOf Cfg.usual) [(0x12 : Byte), 0x00].length :=
  ⟨by decide, by decide, by decide, by decide, by decide, fun _ => ⟨_, rfl, by decide +kernel⟩, by decide, by decide, by decide,
    by decide⟩

theorem reset_inv : State.reset.Inv :=
  ⟨by decide +kernel, rfl, rfl, by decide, by decide +kernel, by decide, by decide, rfl⟩

/-- Reset meets the invariant and its first step answers a next state. -/
theorem witness_StepKeepsTheInvariant : State.reset.Inv ∧ ∃ t, step State.reset = .next t := ⟨reset_inv, _, rfl⟩

/-- Whether an operation answers a next state. -/
def answersNext : Host.Outcome State Fault Refusal → Bool
  | .next _ => true
  | _       => false

theorem exists_of_answersNext (o : Host.Outcome State Fault Refusal) (h : answersNext o = true) : ∃ t, o = .next t := by
  cases o with
  | next t => exact ⟨t, rfl⟩
  | fault _ => cases h
  | refused _ => cases h

/-- A load that fails, a load that succeeds, and the four other operations, from reset. -/
theorem witness_HostOperationsKeepTheInvariant : State.reset.Inv ∧
    ∀ op ∈ [HostOp.load { rawOf Cfg.usual with fontVariant := none } [], .load (rawOf Cfg.usual) [],
        .update (.finite 0) [], .step, .setKey 15 true, .setTargetFreq (.finite 0)],
      ∃ t, hostOp op State.reset = .next t := by
  refine ⟨reset_inv, fun op hop => exists_of_answersNext _ ?_⟩
  revert op
  decide +kernel

theorem witness_StepLeavesTheHostsStateAlone : ∃ t, step State.reset = .next t := ⟨_, rfl⟩

/-- For each clause, an instruction that does change what the clause is about. -/
theorem witness_OnlyTheNamedInstructionsWrite :
    (∃ t, exec (.ldB 0) (withRegs State.reset [(0, 0xFF)]) = .next t ∧ t.memRead 0 ≠ State.reset.memRead 0) ∧
    (∃ t, exec (.drw 0 0 1) (State.reset.setI 0x50) = .next t ∧ t.pixRead 0 0 ≠ State.reset.pixRead 0 0 ∧
      t.dirty ≠ State.reset.dirty) ∧
    (∃ t, exec (.call 0) State.reset = .next t ∧ t.stack ≠ State.reset.stack) ∧
    (∃ t, exec (.ldDTVx 0) (withRegs State.reset [(0, 0xFF)]) = .next t ∧ t.dt ≠ State.reset.dt) ∧
    (∃ t, exec (.ldSTVx 0) (withRegs State.reset [(0, 0xFF)]) = .next t ∧ t.st ≠ State.reset.st) ∧
    (∃ t, exec (.ldF 0) State.reset = .next t ∧ t.i ≠ State.reset.i) ∧
    (∃ t, exec (.rnd 0 0) State.reset = .next t ∧ t.draws ≠ State.reset.draws) :=
  ⟨⟨_, rfl, by decide⟩, ⟨_, rfl, by decide, by decide⟩, ⟨_, rfl, by decide⟩, ⟨_, rfl, by decide⟩,
    ⟨_, rfl, by decide⟩, ⟨_, rfl, by decide⟩, ⟨_, rfl, by decide⟩⟩

theorem witness_FlagIsWrittenOnlyByItsWriters : ∃ t, exec (.shlReg 0 0) (withRegs State.reset [(0, 0x80)]) = .next t ∧
    t.readV 15 ≠ (withRegs State.reset [(0, 0x80)]).readV 15 := ⟨_, rfl, by decide⟩

theorem witness_OtherInstructionsGoOnInSequence : ∃ t, exec (.ldVxK 0) State.reset = .next t ∧ t.pc ≠ State.reset.pc :=
  ⟨_, rfl, by decide⟩

/-- Sixteen pushes on an empty stack, and none on a full one. -/
theorem witness_StackIsLastInFirstOut :
    State.reset.stack.length + (List.replicate 16 (0xFFFF : Word)).length ≤ State.reset.cfg.stackDepth ∧
    (fullStack 0).stack.length + ([] : List Word).length ≤ (fullStack 0).cfg.stackDepth := by decide

theorem witness_SetKeyWritesOneSlot : State.reset.loaded = true ∧ faulted.loaded = true ∧ State.beforeLoad.loaded = false :=
  ⟨rfl, rfl, rfl⟩

theorem witness_SetTargetFreqWhenReady : (State.reset.engine = .ready ∧ (0 : Rat) ≤ 0) ∧ faulted.engine ≠ .ready ∧
    (-1 : Rat) < 0 := ⟨⟨rfl, by decide +kernel⟩, by decide, by decide +kernel⟩

theorem witness_FaultIsLeftOnlyByLoad : faulted.engine = .faulted ∧
    (∃ t, hostOp (.setKey 0 true) faulted = .next t) ∧ ∃ t, hostOp (.load (rawOf Cfg.usual) []) faulted = .next t :=
  ⟨rfl, ⟨_, rfl⟩, _, rfl⟩

theorem witness_HostReadsPixelsFlagAndFault : State.reset.loaded = true ∧ 63 < State.reset.cfg.displayWidth ∧
    31 < State.reset.cfg.displayHeight ∧ faulted.engine = .faulted := by decide

end Sys2Proof.Tests
end

section
/-! PROOFS. What one instruction can do to the state, by kind; from it, what every step keeps (spec
10_state.md R15, R21 to R24, R28, 60_exceptions.md R137). -/

namespace Sys2Proof.Machine

open Sys2Proof.Config

/-! ### The kinds of effect -/

/-- What an instruction can do, by kind: each constructor names the state it leaves. -/
inductive Effect (s : State) : State → Prop where
  /-- Registers, index, `PC`, timers and the count of draws. -/
  | registers (v : Vector Byte 16) (i pc : Word) (dt st : Byte) (draws : Nat) :
      Effect s { s with v := v, i := i, pc := pc, dt := dt, st := st, draws := draws }
  /-- A run of bytes to RAM, and the index. -/
  | store (a : Nat) (bs : List Byte) (i : Word) : Effect s { s.memWriteAll a bs with i := i }
  | clear : Effect s s.clearDisplay
  | draw (x0 y0 n : Nat) : Effect s ((s.writeVF 0).drawRows x0 y0 n)
  /-- A push that finds room. -/
  | push (a pc : Word) (room : s.stack.length < s.cfg.stackDepth) :
      Effect s { s with pc := pc, stack := a :: s.stack }
  /-- A pop of a stack that is not empty. -/
  | pop (a : Word) (rest : List Word) (top : s.stack = a :: rest) :
      Effect s { s with pc := a, stack := rest }
  | fault (f : Fault) : Effect s (s.enterFault f)

theorem Effect.skipIf (s : State) (b : Bool) : Effect s (s.skipIf b) := by
  rw [s.skipIf_eq]
  exact .registers ..

theorem execRet_effect (s t : State) (h : execRet s = .next t) : Effect s t := by
  obtain ⟨a, rest, hs, rfl⟩ | ⟨-, rfl⟩ := execRet_cases s t h
  · exact .pop a rest hs
  · exact .fault _

theorem execCall_effect (nnn : Addr12) (s t : State) (h : execCall nnn s = .next t) : Effect s t := by
  obtain ⟨room, rfl⟩ | ⟨-, rfl⟩ := execCall_cases nnn s t h
  · exact .push _ _ room
  · exact .fault _

theorem execLdVxK_effect (x : Reg) (s t : State) (h : execLdVxK x s = .next t) : Effect s t := by
  obtain ⟨k, -, rfl⟩ | ⟨-, rfl⟩ := execLdVxK_cases x s t h
  · exact .registers ..
  · exact .registers ..

theorem Effect.memWriteAll (s : State) (a : Nat) (bs : List Byte) : Effect s (s.memWriteAll a bs) :=
  .store a bs (s.memWriteAll a bs).i

theorem Effect.storeBlock (s : State) (a : Nat) (bs : List Byte) (n : Nat) :
    Effect s ((s.memWriteAll a bs).advanceI n) := by
  rw [State.advanceI_eq]
  exact .store ..

theorem Effect.loadBlock (s : State) (base n k : Nat) : Effect s ((s.loadRegs base n).advanceI k) := by
  rw [State.advanceI_eq, State.loadRegs_frame]
  exact .registers ..

theorem Effect.addI (s : State) (a : Word) (b : Bool) : Effect s ((s.setI a).reportOverflow b) := by
  rw [State.reportOverflow_eq]
  exact .registers ..

/-- Every instruction has one of the seven kinds of effect. -/
theorem exec_effect (i : Instr) (s t : State) (h : exec i s = .next t) : Effect s t := by
  cases i
  case ret => exact execRet_effect s t h
  case call nnn => exact execCall_effect nnn s t h
  case ldVxK x => exact execLdVxK_effect x s t h
  case seByte | sneByte | seReg | sneReg | skp | sknp => cases h; exact Effect.skipIf s _
  case cls => cases h; exact .clear
  case drw => cases h; exact .draw ..
  case addI => cases h; exact Effect.addI s _ _
  case ldB => cases h; exact Effect.memWriteAll s _ _
  case storeBlock => cases h; exact Effect.storeBlock s _ _ _
  case loadBlock => cases h; exact Effect.loadBlock s _ _ _
  all_goals cases h; exact .registers ..

/-! ### What the host owns -/

/-- No effect reaches what only the host changes. -/
theorem Effect.keeps_host_state {s t : State} (h : Effect s t) :
    t.cfg = s.cfg ∧ t.targetFreq = s.targetFreq ∧ t.keys = s.keys ∧ t.loaded = s.loaded := by
  cases h
  case store a bs i => rw [State.memWriteAll_frame]; exact ⟨rfl, rfl, rfl, rfl⟩
  case draw x0 y0 n => rw [State.drawRows_frame]; exact ⟨rfl, rfl, rfl, rfl⟩
  all_goals exact ⟨rfl, rfl, rfl, rfl⟩

/-- A step is an effect on the state whose `PC` is advanced: an instruction's, or the fault of an illegal
word. -/
theorem step_effect (s t : State) (h : step s = .next t) : s.engine = .ready ∧ Effect s.advancePC t := by
  obtain ⟨hready, ⟨i, -, hi⟩ | ⟨e, -, he⟩⟩ := step_cases s t h
  · exact ⟨hready, exec_effect i _ t hi⟩
  · cases he
    exact ⟨hready, .fault _⟩

/-- Settles O52: a step is an effect, and no effect reaches the host's state. -/
theorem stepLeavesTheHostsStateAlone : Obligations.StepLeavesTheHostsStateAlone := by
  unfold Obligations.StepLeavesTheHostsStateAlone
  intro s t h
  exact (step_effect s t h).2.keeps_host_state

/-! ### The invariant -/

theorem State.Inv.memWriteAll {s : State} (h : s.Inv) (a : Nat) (bs : List Byte) : (s.memWriteAll a bs).Inv := by
  obtain ⟨hcfg, hmem, hrest⟩ := h
  have ⟨hsize, _⟩ := hcfg
  have hwf := s.memWriteAll_wf a bs hsize hmem
  rw [State.memWriteAll_frame] at hwf ⊢
  exact ⟨hcfg, hwf, hrest⟩

theorem State.Inv.drawRows {s : State} (h : s.Inv) (x0 y0 n : Nat) : (s.drawRows x0 y0 n).Inv := by
  obtain ⟨hcfg, hmem, hfb, hrest⟩ := h
  have ⟨_, _, _, _, _, _, hwidth, hheight, _⟩ := hcfg
  have hwf := s.drawRows_wf x0 y0 n hwidth hheight hfb
  rw [State.drawRows_frame]
  exact ⟨hcfg, hmem, hwf, hrest⟩

theorem State.Inv.clearDisplay {s : State} (h : s.Inv) : s.clearDisplay.Inv := by
  obtain ⟨hcfg, hmem, -, hrest⟩ := h
  exact ⟨hcfg, hmem, rfl, hrest⟩

/-- A stack within the depth may replace the stack. -/
theorem State.Inv.setStack {s : State} (h : s.Inv) (st : List Word) (hst : st.length ≤ s.cfg.stackDepth) :
    ({ s with stack := st } : State).Inv := by
  obtain ⟨hcfg, hmem, hfb, -, hrest⟩ := h
  exact ⟨hcfg, hmem, hfb, hst, hrest⟩

/-- Fault entry writes the record and the engine state together. -/
theorem State.Inv.enterFault {s : State} (h : s.Inv) (f : Fault) : (s.enterFault f).Inv := by
  obtain ⟨hcfg, hmem, hfb, hstack, hfreq, -, -, hloaded⟩ := h
  exact ⟨hcfg, hmem, hfb, hstack, hfreq, by simp, by simp, hloaded⟩

/-- Every effect keeps the invariant. The registers, `I`, `PC`, the timers and the count of draws are no part
of it, so an update of them alone leaves its statement as it is. -/
theorem Effect.keeps_inv {s t : State} (h : Effect s t) (hs : s.Inv) : t.Inv := by
  cases h
  case registers => exact hs
  case store a bs i => exact hs.memWriteAll a bs
  case clear => exact hs.clearDisplay
  case draw x0 y0 n => exact State.Inv.drawRows (s := s.writeVF 0) hs x0 y0 n
  case push a pc room => exact hs.setStack (a :: s.stack) room
  case pop a rest top =>
    have ⟨_, _, _, hstack, _⟩ := hs
    rw [top] at hstack
    exact hs.setStack rest (Nat.le_of_succ_le hstack)
  case fault f => exact hs.enterFault f

/-- Settles O49: a step is an effect on the state with `PC` advanced, and every effect keeps the invariant. -/
theorem stepKeepsTheInvariant : Obligations.StepKeepsTheInvariant := by
  unfold Obligations.StepKeepsTheInvariant
  intro s t hs h
  exact (step_effect s t h).2.keeps_inv (s := s.advancePC) hs

end Sys2Proof.Machine
end

section
/-! PROOFS. What each instruction does to `VF` and to `PC`, and the order in which the stack gives back what it
was given (spec 10_state.md R12, R14, R15). -/

namespace Sys2Proof.Machine

open Sys2Proof.Spec

/-! ### `PC` and the registers under the shared operations -/

namespace State

variable (s : State)

@[simp] theorem memWriteAll_pc (a : Nat) (bs : List Byte) : (s.memWriteAll a bs).pc = s.pc := by
  rw [memWriteAll_frame]

@[simp] theorem loadRegs_pc (base n : Nat) : (s.loadRegs base n).pc = s.pc := by
  rw [loadRegs_frame]

@[simp] theorem drawRows_pc (x0 y0 n : Nat) : (s.drawRows x0 y0 n).pc = s.pc := by
  rw [drawRows_frame]

@[simp] theorem advanceI_pc (n : Nat) : (s.advanceI n).pc = s.pc := by
  rw [advanceI_eq]

@[simp] theorem reportOverflow_pc (b : Bool) : (s.reportOverflow b).pc = s.pc := by
  rw [reportOverflow_eq]

@[simp] theorem writeResultFlag_pc (x : Reg) (result : Byte) (flag : Bool) :
    (s.writeResultFlag x result flag).pc = s.pc := rfl

theorem readV_writeV_of_ne {x r : Reg} (b : Byte) (h : r ≠ x) : (s.writeV x b).readV r = s.readV r := by
  rw [readV_writeV, if_neg h]

@[simp] theorem readV_memWriteAll (a : Nat) (bs : List Byte) (r : Reg) :
    (s.memWriteAll a bs).readV r = s.readV r := by
  rw [memWriteAll_frame]
  rfl

@[simp] theorem readV_advanceI (n : Nat) (r : Reg) : (s.advanceI n).readV r = s.readV r := by
  rw [advanceI_eq]
  rfl

@[simp] theorem readV_skipIf (b : Bool) (r : Reg) : (s.skipIf b).readV r = s.readV r := by
  rw [skipIf_eq]
  rfl

/-- With its toggle off, the overflow report leaves every register. -/
theorem readV_reportOverflow_of_off (b : Bool) (r : Reg) (h : s.cfg.addiOverflowVF = false) :
    (s.reportOverflow b).readV r = s.readV r := by
  simp [reportOverflow, h]

/-- A block load that stops before `VF` leaves `VF`. -/
theorem readVF_loadRegs_of_ne (base : Nat) {x : Reg} (h : x ≠ 15) :
    (s.loadRegs base (x.val + 1)).readV 15 = s.readV 15 := by
  have hlt : x.val < 15 := Fin.val_lt_last h
  have hbeyond : ¬ (15 : Reg).val < x.val + 1 := Nat.not_lt.mpr hlt
  rw [s.readV_loadRegs base (x.val + 1) (by omega), if_neg hbeyond]

end State

/-! ### The flag -/

/-- Any instruction but a flag writer, one whose destination is `VF`, and `FF65` leaves `VF`. -/
theorem exec_readVF (i : Instr) (s t : State) (h : exec i s = .next t)
    (hwriter : writesFlag s.cfg i = false) (hdest : namedDest i ≠ some 15) (hload : i ≠ .loadBlock 15) :
    t.readV 15 = s.readV 15 := by
  have hne : ∀ x, namedDest i = some x → (15 : Reg) ≠ x := fun x hx e => hdest (hx.trans (congrArg some e.symm))
  cases i
  case addReg | subReg | subnReg | shrReg | shlReg | drw => cases hwriter
  case ldByte | addByte | ldReg | orReg | andReg | xorReg | ldVxDT =>
    cases h
    exact s.readV_writeV_of_ne _ (hne _ rfl)
  case rnd =>
    cases h
    exact s.nextDraw.readV_writeV_of_ne _ (hne _ rfl)
  case ldVxK =>
    obtain ⟨k, -, rfl⟩ | ⟨-, rfl⟩ := execLdVxK_cases _ s t h
    · exact s.readV_writeV_of_ne _ (hne _ rfl)
    · rfl
  case loadBlock x =>
    cases h
    rw [State.readV_advanceI]
    exact s.readVF_loadRegs_of_ne _ fun e => hload (congrArg Instr.loadBlock e)
  case addI x =>
    cases h
    exact State.readV_reportOverflow_of_off (s.setI _) _ 15 hwriter
  case ret => obtain ⟨_, _, _, rfl⟩ | ⟨-, rfl⟩ := execRet_cases s t h <;> rfl
  case call => obtain ⟨_, rfl⟩ | ⟨-, rfl⟩ := execCall_cases _ s t h <;> rfl
  case seByte | sneByte | seReg | sneReg | skp | sknp => cases h; exact s.readV_skipIf _ 15
  case ldB => cases h; exact s.readV_memWriteAll _ _ 15
  case storeBlock => cases h; rw [State.readV_advanceI, State.readV_memWriteAll]
  all_goals cases h; rfl

/-- Settles O54: the contrapositive of `exec_readVF`. -/
theorem flagIsWrittenOnlyByItsWriters : Obligations.FlagIsWrittenOnlyByItsWriters := by
  unfold Obligations.FlagIsWrittenOnlyByItsWriters
  intro i s t h hchanged
  by_contra hnone
  rw [not_or, not_or, Bool.not_eq_true] at hnone
  obtain ⟨hwriter, hdest, hload⟩ := hnone
  exact hchanged (exec_readVF i s t h hwriter hdest hload)

/-! ### The program counter -/

/-- The instructions that can change `PC` beyond the advance by `Step`: return, jumps, call, skips, key wait. -/
def transfersControl : Instr → Bool
  | .ret | .jp _ | .call _ | .jpV0 _ | .seByte _ _ | .sneByte _ _ | .seReg _ _ | .sneReg _ _ | .skp _ | .sknp _
  | .ldVxK _ => true
  | _ => false

/-- The other instructions go on in sequence. -/
theorem exec_pc (i : Instr) (s t : State) (h : exec i s = .next t) (hi : transfersControl i = false) :
    t.pc = s.pc := by
  cases i
  case ret | jp | call | jpV0 | seByte | sneByte | seReg | sneReg | skp | sknp | ldVxK => cases hi
  case drw => cases h; exact State.drawRows_pc ..
  case addI => cases h; exact State.reportOverflow_pc ..
  case ldB => cases h; exact State.memWriteAll_pc ..
  case storeBlock => cases h; rw [State.advanceI_pc, State.memWriteAll_pc]
  case loadBlock => cases h; rw [State.advanceI_pc, State.loadRegs_pc]
  all_goals cases h; rfl

/-- Settles O55: `transfersControl` holds of the listed instructions only, and `exec_pc` speaks of the others. -/
theorem otherInstructionsGoOnInSequence : Obligations.OtherInstructionsGoOnInSequence := by
  unfold Obligations.OtherInstructionsGoOnInSequence
  intro i s t h hchanged
  have htransfer : transfersControl i = true := by
    by_contra hno
    exact hchanged (exec_pc i s t h (Bool.not_eq_true _ ▸ hno))
  cases i
  case ret | jp | call | jpV0 | seByte | sneByte | seReg | sneReg | skp | sknp | ldVxK => simp
  all_goals cases htransfer

/-! ### The stack -/

/-- A pop gives back the last push and the state before it. -/
theorem State.pop_of_push {s s' : State} {a : Word} (h : s.push a = some s') : s'.pop = some (a, s) := by
  obtain ⟨-, rfl⟩ := (s.push_eq_some s' a).mp h
  rfl

/-- Settles O56, by induction on the values pushed: the first value pushed is popped last. -/
theorem stackIsLastInFirstOut : Obligations.StackIsLastInFirstOut := by
  unfold Obligations.StackIsLastInFirstOut
  intro vs
  induction vs with
  | nil => exact fun s _ => ⟨s, rfl, rfl⟩
  | cons v vs ih =>
    intro s hfits
    rw [List.length_cons] at hfits
    have hpush : s.push v = some { s with stack := v :: s.stack } := (s.push_eq_some _ v).mpr ⟨by omega, rfl⟩
    obtain ⟨t, hpushes, hpops⟩ := ih { s with stack := v :: s.stack } (by simp only [List.length_cons]; omega)
    refine ⟨t, ?_, ?_⟩
    · simpa [List.foldlM_cons, hpush] using hpushes
    · rw [List.reverse_cons, List.foldlM_append, hpops]
      simp [State.pop_of_push hpush]

end Sys2Proof.Machine
end

section
/-! PROOFS. What a `Load` leaves, the reset state, and `SetTargetFreq` (spec 10_state.md R23, R26,
70_reset_and_hazards.md R152, R153, 20_memory.md R37, R38). -/

namespace Sys2Proof.Machine

open Sys2Proof.Config Sys2Proof.Spec

/-! ### The ten checks -/

/-- The ten checks without their numbers. -/
theorem checksHold_all {c : RawCfg} {len : Nat} (h : ChecksHold 10 c len) :
    (1 ≤ c.memSize ∧ c.memSize ≤ 65536) ∧ (0 ≤ c.programOffset ∧ c.programOffset < c.memSize) ∧
    (0 ≤ c.fontOffset ∧ c.fontOffset < c.memSize) ∧ 1 ≤ c.stackDepth ∧
    (1 ≤ c.displayWidth ∧ 1 ≤ c.displayHeight) ∧ (∃ f, c.targetFreqInit = .finite f ∧ 0 ≤ f) ∧
    c.fontVariant ≠ none ∧ ¬ regionsOverlap c len = true ∧ c.fontOffset + fontLength ≤ c.memSize ∧
    c.programOffset + len ≤ c.memSize := by
  obtain ⟨h1, h2, h3, h4, h5, h6, h7, h8, h9, h10⟩ := h
  exact ⟨h1 (by decide), h2 (by decide), h3 (by decide), h4 (by decide), h5 (by decide), h6 (by decide),
    h7 (by decide), fun ho => h8 (by decide) ((regionsOverlap_iff c len).mp ho), h9 (by decide), h10 (by decide)⟩

/-- No fault is raised when the ten checks hold. -/
theorem loadFault_of_checksHold {c : RawCfg} {len : Nat} (h : ChecksHold 10 c len) : loadFault c len = none := by
  obtain ⟨hmem, hprog, hfont, hstack, ⟨hwidth, hheight⟩, hfreq, hvariant, hapart, hfontFits, hprogFits⟩ :=
    checksHold_all h
  have hnonneg := (isNonNegative_iff _).mpr hfreq
  have hsome : ¬ c.fontVariant.isNone = true := by simpa using hvariant
  unfold loadFault
  rw [if_neg (not_not_intro hmem), if_neg (not_not_intro hprog), if_neg (not_not_intro hfont),
    if_neg (not_not_intro hstack), if_neg (not_not_intro hwidth), if_neg (not_not_intro hheight),
    if_neg (not_not_intro hnonneg), if_neg hsome, if_neg hapart, if_neg (not_lt.mpr hfontFits),
    if_neg (not_lt.mpr hprogFits)]

/-- A configuration that passes the checks loses nothing when it is latched. -/
theorem rawOf_latch {c : RawCfg} {len : Nat} (h : ChecksHold 10 c len) : rawOf (latch c) = c := by
  obtain ⟨hmem, hprog, hfont, hstack, hdisplay, ⟨f, hfreq, -⟩, hvariant, -⟩ := checksHold_all h
  obtain ⟨v, hv⟩ := Option.ne_none_iff_exists'.mp hvariant
  cases c
  simp only at hmem hprog hfont hstack hdisplay hfreq hv
  subst hfreq hv
  simp only [rawOf, latch, realValue, Option.getD_some, RawCfg.mk.injEq, and_true]
  omega

/-- Where font and program stand in a RAM that they fit, and that they do not meet. -/
theorem regions_of_checksHold {c : Cfg} {len : Nat} (h : ChecksHold 10 (rawOf c) len) :
    c.memSize ≤ 65536 ∧ c.programOffset < c.memSize ∧ c.fontOffset + fontLength ≤ c.memSize ∧
    c.programOffset + len ≤ c.memSize ∧
    ¬ (0 < len ∧ c.fontOffset < c.programOffset + len ∧ c.programOffset < c.fontOffset + fontLength) := by
  obtain ⟨⟨-, hmem⟩, ⟨-, hprog⟩, -, -, -, -, -, hapart, hfontFits, hprogFits⟩ := checksHold_all h
  rw [regionsOverlap_iff] at hapart
  simp only [rawOf] at hmem hprog hapart hfontFits hprogFits
  exact ⟨by omega, by omega, by omega, by omega, by omega⟩

/-- The state that a `Load` leaves whose checks hold. -/
theorem load_of_checksHold {c : RawCfg} {program : List Byte} (s : State) (h : ChecksHold 10 c program.length) :
    load c program s = loadedState (latch c) program s.draws :=
  load_of_no_fault c program s (loadFault_of_checksHold h)

/-! ### RAM right after a `Load` -/

theorem effectiveAddr_of_lt {c : Cfg} {a : Nat} (h : a < c.memSize) : effectiveAddr c a = a :=
  Nat.mod_eq_of_lt h

theorem resetByte_font (c : Cfg) {k : Nat} (hk : k < fontLength) :
    resetByte c (c.fontOffset + k) = fontByte c.fontVariant k := by
  rw [resetByte, if_pos ⟨Nat.le_add_right _ _, Nat.add_lt_add_left hk _⟩, Nat.add_sub_cancel_left]

theorem resetByte_outside (c : Cfg) {a : Nat} (h : ¬ (c.fontOffset ≤ a ∧ a < c.fontOffset + fontLength)) :
    resetByte c a = 0 :=
  if_neg h

theorem memRead_loadedState (c : Cfg) (program : List Byte) (n : Nat) {a : Nat} (ha : a < c.memSize) :
    (loadedState c program n).memRead a =
      Cells.get (resetByte c) (Memory.place c [] c.programOffset program) a :=
  congrArg (Cells.get _ _) (effectiveAddr_of_lt ha)

/-- A program byte is in its place. -/
theorem memRead_loadedState_program (c : Cfg) (program : List Byte) (n : Nat) {k : Nat} (hk : k < program.length)
    (hfits : c.programOffset + program.length ≤ c.memSize) :
    (loadedState c program n).memRead (c.programOffset + k) = program[k] := by
  rw [memRead_loadedState c program n (by omega), Memory.get_place]

/-- Beside the program, RAM is what a `Load` of no program leaves. -/
theorem memRead_loadedState_outside (c : Cfg) (program : List Byte) (n : Nat) {a : Nat} (ha : a < c.memSize)
    (hout : ¬ (c.programOffset ≤ a ∧ a < c.programOffset + program.length)) :
    (loadedState c program n).memRead a = resetByte c a := by
  rw [memRead_loadedState c program n ha, Memory.get_place_of_outside _ _ _ _ _ hout, Cells.get]

/-- A font byte is in its place, for the program stands apart from the font. -/
theorem memRead_loadedState_font (c : Cfg) (program : List Byte) (n : Nat) {k : Nat} (hk : k < fontLength)
    (hfits : c.fontOffset + fontLength ≤ c.memSize)
    (hapart : ¬ (0 < program.length ∧ c.fontOffset < c.programOffset + program.length ∧
      c.programOffset < c.fontOffset + fontLength)) :
    (loadedState c program n).memRead (c.fontOffset + k) = fontByte c.fontVariant k := by
  rw [memRead_loadedState_outside c program n (by omega) (by omega), resetByte_font c hk]

/-! ### The rest of the state right after a `Load` -/

@[simp] theorem readV_loadedState (c : Cfg) (program : List Byte) (n : Nat) (r : Reg) :
    (loadedState c program n).readV r = 0 :=
  Vector.getElem_replicate r.isLt

@[simp] theorem readKey_loadedState (c : Cfg) (program : List Byte) (n : Nat) (k : Key) :
    (loadedState c program n).readKey k = false :=
  Vector.getElem_replicate k.isLt

@[simp] theorem pixRead_loadedState (c : Cfg) (program : List Byte) (n px py : Nat) :
    (loadedState c program n).pixRead px py = false := rfl

theorem loadedState_pc_toNat (c : Cfg) (program : List Byte) (n : Nat) (h : c.programOffset < 65536) :
    (loadedState c program n).pc.toNat = c.programOffset :=
  Nat.mod_eq_of_lt h

/-- The reset state is what a `Load` of the usual configuration and of no program leaves. -/
theorem reset_eq_loadedState : State.reset = loadedState Cfg.usual [] 0 := rfl

/-- Settles O46: the loaded state field by field, its memory by the three regions of RAM. -/
theorem loadResetsEverything : Obligations.LoadResetsEverything := by
  unfold Obligations.LoadResetsEverything
  intro c program s hchecks
  have hraw := rawOf_latch hchecks
  have hlatched : ChecksHold 10 (rawOf (latch c)) program.length := by rwa [hraw]
  obtain ⟨hmem, hprog, hfontFits, hprogFits, hapart⟩ := regions_of_checksHold hlatched
  refine ⟨loadedState (latch c) program s.draws, ?_, readV_loadedState _ _ _, rfl, ?_, rfl, ?_, ?_, ?_,
    pixRead_loadedState _ _ _, rfl, rfl, rfl, readKey_loadedState _ _ _, hraw.symm, rfl, rfl, rfl⟩
  · rw [hostOp, load_of_checksHold s hchecks]
  · rw [loadedState_pc_toNat _ _ _ (by omega)]
    exact congrArg RawCfg.programOffset hraw
  · intro k hk
    exact memRead_loadedState_program (latch c) program _ hk hprogFits
  · intro k hk
    exact memRead_loadedState_font (latch c) program _ hk hfontFits hapart
  · intro a ha hnotProgram hnotFont
    exact (memRead_loadedState_outside (latch c) program _ ha hnotProgram).trans
      (resetByte_outside (latch c) hnotFont)

/-- Settles O45: the reset state is the loaded state of the usual configuration and no program. -/
theorem resetLeavesTheStatedValues : Obligations.ResetLeavesTheStatedValues := by
  unfold Obligations.ResetLeavesTheStatedValues
  rw [reset_eq_loadedState]
  refine ⟨readV_loadedState _ _ _, rfl, rfl, rfl, ?_, pixRead_loadedState _ _ _, rfl, rfl, rfl,
    readKey_loadedState _ _ _, rfl, rfl, rfl⟩
  intro a ha
  exact memRead_loadedState_outside Cfg.usual [] 0 ha (by simp)

/-! ### The invariant at reset -/

/-- A `Load` of no program of a valid configuration establishes the invariant. -/
theorem afterLoad_inv {c : Cfg} (h : CfgValid c) (n : Nat) : (State.afterLoad c n).Inv := by
  have ⟨_, _, _, _, _, _, _, _, hfreq⟩ := h
  exact ⟨h, rfl, rfl, Nat.zero_le _, hfreq, by simp [State.afterLoad], by simp [State.afterLoad], rfl⟩

theorem cfgValid_usual : CfgValid Cfg.usual := by decide +kernel

/-- Settles O48: the usual configuration is valid. -/
theorem resetMeetsTheInvariant : Obligations.ResetMeetsTheInvariant :=
  afterLoad_inv cfgValid_usual 0

/-! ### `SetTargetFreq` -/

theorem setTargetFreq_of_ready {s : State} {f : Rat} (h : s.engine = .ready) :
    setTargetFreq (.finite f) s =
      if 0 ≤ f then .next { s with targetFreq := f } else .refused .targetFreqValue := by
  rw [setTargetFreq, s.notReady_eq_none.mpr h]
  simp [isNonNegative, realValue]

theorem setTargetFreq_of_not_ready {s : State} (f : HostReal) (h : s.engine ≠ .ready) :
    setTargetFreq f s = .refused .targetFreqNotReady := by
  obtain ⟨r, hr⟩ := Option.ne_none_iff_exists'.mp (mt s.notReady_eq_none.mp h)
  rw [setTargetFreq, hr]

/-- Another frequency touches the frequency and nothing else. -/
theorem frame_targetFreq (s : State) (f : Rat) : Frame { freq := True } s { s with targetFreq := f } := by
  simp [Frame, State.readV, State.memRead, State.pixRead, State.readKey]

/-- Settles O58: by whether the engine is `Ready` and whether `f` is negative. -/
theorem setTargetFreqWhenReady : Obligations.SetTargetFreqWhenReady := by
  unfold Obligations.SetTargetFreqWhenReady
  intro f s
  constructor
  · intro hready hf
    exact ⟨_, by rw [setTargetFreq_of_ready hready, if_pos hf], rfl, frame_targetFreq s f⟩
  · intro hillegal
    by_cases hready : s.engine = .ready
    · have hneg := hillegal.resolve_left (not_not_intro hready)
      exact ⟨_, by rw [setTargetFreq_of_ready hready, if_neg (not_le.mpr hneg)]⟩
    · exact ⟨_, setTargetFreq_of_not_ready _ hready⟩

end Sys2Proof.Machine
end

section
/-! PROOFS. Frames of the shared operations and of every instruction, byte access to memory, and the fetch (spec
10_state.md R13, R15, R17 to R20, 20_memory.md R30 to R33, R39, R41). -/

namespace Sys2Proof.Machine

open Sys2Proof.Spec

/-! ### Frames of the shared operations

Each lemma allows any `w` that names what the operation touches, so that a composite meets the frame of its
instruction without a weakening step. -/

theorem frame_refl (w : Touched) (s : State) : Frame w s s := by
  simp [Frame]

/-- Frames compose, for the cells are named under one configuration. -/
theorem frame_trans {w : Touched} {s t u : State} (hcfg : ¬ w.cfg) (hst : Frame w s t) (htu : Frame w t u) :
    Frame w s u := by
  have hsame : t.cfg = s.cfg := by
    obtain ⟨-, -, -, -, -, -, -, -, -, -, h, -⟩ := hst
    exact h hcfg
  unfold Frame at *
  rw [hsame] at htu
  simp_all

section

variable {w : Touched} (s : State)

theorem frame_writeV {x : Reg} (b : Byte) (hx : w.reg x) : Frame w s (s.writeV x b) := by
  refine ⟨fun r hr => s.readV_writeV_of_ne b fun e => hr (e ▸ hx), ?_⟩
  simp

theorem frame_writeVF (b : Byte) (h : w.reg 15) : Frame w s (s.writeVF b) :=
  frame_writeV s b h

theorem frame_setI (a : Word) (h : w.index) : Frame w s (s.setI a) := by
  simp [Frame, h]

theorem frame_setPC (a : Word) (h : w.pc) : Frame w s (s.setPC a) := by
  simp [Frame, h]

theorem frame_setPC_stack (a : Word) (st : List Word) (hpc : w.pc) (hstack : w.stack) :
    Frame w s { s with pc := a, stack := st } := by
  simp [Frame, hpc, hstack, State.readV, State.memRead, State.pixRead, State.readKey]

theorem frame_setDT (b : Byte) (h : w.delay) : Frame w s (s.setDT b) := by
  simp [Frame, h]

theorem frame_setST (b : Byte) (h : w.sound) : Frame w s (s.setST b) := by
  simp [Frame, h]

theorem frame_nextDraw (h : w.draws) : Frame w s s.nextDraw := by
  simp [Frame, h]

theorem frame_clearDisplay (hp : w.pixels) (hd : w.dirty) : Frame w s s.clearDisplay := by
  simp [Frame, hp, hd]

theorem frame_enterFault (f : Fault) (h : w.engine) : Frame w s (s.enterFault f) := by
  simp [Frame, h]

theorem frame_memWrite (a : Nat) (b : Byte) (h : w.cell (effectiveAddr s.cfg a)) :
    Frame w s (s.memWrite a b) := by
  have hcell : ∀ a', ¬ w.cell (effectiveAddr s.cfg a') → (s.memWrite a b).memRead a' = s.memRead a' := by
    intro a' ha'
    rw [State.memRead_memWrite, if_neg]
    exact fun e => ha' (e ▸ h)
  simpa [Frame] using hcell

theorem frame_skipIf (b : Bool) (h : w.pc) : Frame w s (s.skipIf b) := by
  cases b
  · exact frame_refl w s
  · exact frame_setPC s _ h

theorem frame_advanceI (n : Nat) (h : s.cfg.memIncrementsI = true → w.index) : Frame w s (s.advanceI n) := by
  unfold State.advanceI
  split
  · next hon => exact frame_setI s _ (h hon)
  · exact frame_refl w s

theorem frame_reportOverflow (b : Bool) (h : s.cfg.addiOverflowVF = true → w.reg 15) :
    Frame w s (s.reportOverflow b) := by
  unfold State.reportOverflow
  split
  · next hon => exact frame_writeVF s _ (h hon)
  · exact frame_refl w s

theorem frame_writeResultFlag {x : Reg} (b : Byte) (flag : Bool) (hcfg : ¬ w.cfg) (hx : w.reg x)
    (hf : w.reg 15) : Frame w s (s.writeResultFlag x b flag) :=
  frame_trans hcfg (frame_writeV s b hx) (frame_writeVF _ _ hf)

theorem frame_memWriteAll (a : Nat) (bs : List Byte) (hcfg : ¬ w.cfg)
    (h : ∀ k < bs.length, w.cell (effectiveAddr s.cfg (a + k))) : Frame w s (s.memWriteAll a bs) := by
  induction bs generalizing s a with
  | nil => exact frame_refl w s
  | cons b bs ih =>
    refine frame_trans hcfg (frame_memWrite s a b (h 0 (by simp))) (ih _ _ fun k hk => ?_)
    have := h (k + 1) (by simpa using hk)
    rwa [State.memWrite_cfg, Nat.add_assoc, Nat.add_comm 1 k]

theorem frame_loadRegs (base n : Nat) (hcfg : ¬ w.cfg) (h : ∀ k < n, w.reg (Fin.ofNat 16 k)) :
    Frame w s (s.loadRegs base n) := by
  induction n with
  | zero => exact frame_refl w s
  | succ n ih => exact frame_trans hcfg (ih fun k hk => h k (by omega)) (frame_writeV _ _ (h n (by omega)))

theorem frame_drawRows (x0 y0 n : Nat) (hf : w.reg 15) (hp : w.pixels) (hd : w.dirty) :
    Frame w s (s.drawRows x0 y0 n) := by
  refine ⟨fun r hr => s.readV_drawRows_of_ne x0 y0 n r fun e => hr (e ▸ hf), ?_⟩
  rw [State.drawRows_frame]
  simp [hp, hd, State.memRead, State.readKey]

end

/-! ### The frame of every instruction -/

/-- What each instruction may touch when it executes in `s`. -/
def touchedBy (s : State) : Instr → Touched
  | .cls => { pixels := True, dirty := True }
  | .ret | .call _ => { pc := True, stack := True, engine := True }
  | .jp _ | .jpV0 _ | .seByte _ _ | .sneByte _ _ | .seReg _ _ | .sneReg _ _ | .skp _ | .sknp _ => { pc := True }
  | .ldByte x _ | .addByte x _ | .ldReg x _ | .orReg x _ | .andReg x _ | .xorReg x _ | .ldVxDT x =>
    { reg := (· = x) }
  | .addReg x _ | .subReg x _ | .shrReg x _ | .subnReg x _ | .shlReg x _ => { reg := fun r => r = x ∨ r = 15 }
  | .rnd x _ => { reg := (· = x), draws := True }
  | .drw _ _ _ => { reg := (· = 15), pixels := True, dirty := True }
  | .ldVxK x => { reg := (· = x), pc := True }
  | .ldDTVx _ => { delay := True }
  | .ldSTVx _ => { sound := True }
  | .ldI _ | .ldF _ => { index := True }
  | .addI _ => { reg := fun r => r = 15 ∧ s.cfg.addiOverflowVF = true, index := True }
  | .ldB _ => { cell := fun a => ∃ k < 3, a = effectiveAddr s.cfg (s.elementAddr k) }
  | .storeBlock x =>
    { index := s.cfg.memIncrementsI = true
      cell := fun a => ∃ k ≤ x.val, a = effectiveAddr s.cfg (s.elementAddr k) }
  | .loadBlock x => { reg := (· ≤ x), index := s.cfg.memIncrementsI = true }

@[simp] theorem length_firstRegs (s : State) (x : Reg) : (s.firstRegs (x.val + 1)).length = x.val + 1 := by
  rw [State.firstRegs, List.length_take, Vector.length_toList]
  omega

theorem exec_ldB_frame (x : Reg) (s t : State) (h : exec (.ldB x) s = .next t) :
    Frame (touchedBy s (.ldB x)) s t := by
  cases h
  exact frame_memWriteAll s _ _ not_false fun k hk => ⟨k, hk, rfl⟩

theorem exec_storeBlock_frame (x : Reg) (s t : State) (h : exec (.storeBlock x) s = .next t) :
    Frame (touchedBy s (.storeBlock x)) s t := by
  cases h
  refine frame_trans not_false (frame_memWriteAll s _ _ not_false fun k hk => ?_) (frame_advanceI _ _ ?_)
  · exact ⟨k, Nat.le_of_lt_succ (by rwa [length_firstRegs] at hk), rfl⟩
  · rw [State.memWriteAll_cfg]
    exact id

theorem exec_loadBlock_frame (x : Reg) (s t : State) (h : exec (.loadBlock x) s = .next t) :
    Frame (touchedBy s (.loadBlock x)) s t := by
  cases h
  refine frame_trans not_false (frame_loadRegs s _ _ not_false fun k hk => ?_) (frame_advanceI _ _ ?_)
  · exact (Nat.mod_le k 16).trans (Nat.le_of_lt_succ hk)
  · rw [State.loadRegs_frame]
    exact id

/-- Every instruction keeps to what `touchedBy` names. -/
theorem exec_frame (i : Instr) (s t : State) (h : exec i s = .next t) : Frame (touchedBy s i) s t := by
  cases i
  case cls => cases h; exact frame_clearDisplay s trivial trivial
  case ret =>
    obtain ⟨a, rest, -, rfl⟩ | ⟨-, rfl⟩ := execRet_cases s t h
    · exact frame_setPC_stack s a rest trivial trivial
    · exact frame_enterFault s _ trivial
  case call nnn =>
    obtain ⟨-, rfl⟩ | ⟨-, rfl⟩ := execCall_cases nnn s t h
    · exact frame_setPC_stack s _ _ trivial trivial
    · exact frame_enterFault s _ trivial
  case jp | jpV0 => cases h; exact frame_setPC s _ trivial
  case seByte | sneByte | seReg | sneReg | skp | sknp => cases h; exact frame_skipIf s _ trivial
  case ldByte | addByte | ldReg | orReg | andReg | xorReg | ldVxDT => cases h; exact frame_writeV s _ rfl
  case addReg | subReg | shrReg | subnReg | shlReg =>
    cases h
    exact frame_writeResultFlag s _ _ not_false (.inl rfl) (.inr rfl)
  case rnd => cases h; exact frame_trans not_false (frame_nextDraw s trivial) (frame_writeV _ _ rfl)
  case drw =>
    cases h
    exact frame_trans not_false (frame_writeVF s 0 rfl) (frame_drawRows _ _ _ _ rfl trivial trivial)
  case ldVxK x =>
    obtain ⟨k, -, rfl⟩ | ⟨-, rfl⟩ := execLdVxK_cases x s t h
    · exact frame_writeV s _ rfl
    · exact frame_setPC s _ trivial
  case ldDTVx => cases h; exact frame_setDT s _ trivial
  case ldSTVx => cases h; exact frame_setST s _ trivial
  case ldI | ldF => cases h; exact frame_setI s _ trivial
  case addI =>
    cases h
    exact frame_trans not_false (frame_setI s _ trivial) (frame_reportOverflow _ _ fun hon => ⟨rfl, hon⟩)
  case ldB x => exact exec_ldB_frame x s t h
  case storeBlock x => exact exec_storeBlock_frame x s t h
  case loadBlock x => exact exec_loadBlock_frame x s t h

/-! ### Which instructions may touch each piece of state -/

section

variable {s : State} {i : Instr}

theorem touchedBy_cell {a : Nat} (h : (touchedBy s i).cell a) : ∃ x, i = .ldB x ∨ i = .storeBlock x := by
  cases i
  case ldB x => exact ⟨x, .inl rfl⟩
  case storeBlock x => exact ⟨x, .inr rfl⟩
  all_goals cases h

theorem touchedBy_pixels (h : (touchedBy s i).pixels) : i = .cls ∨ ∃ x y n, i = .drw x y n := by
  cases i
  case cls => exact .inl rfl
  case drw x y n => exact .inr ⟨x, y, n, rfl⟩
  all_goals cases h

/-- Pixels and `DIRTY` go together. -/
theorem touchedBy_dirty_iff : (touchedBy s i).dirty ↔ (touchedBy s i).pixels := by
  cases i <;> rfl

theorem touchedBy_stack (h : (touchedBy s i).stack) : i = .ret ∨ ∃ nnn, i = .call nnn := by
  cases i
  case ret => exact .inl rfl
  case call nnn => exact .inr ⟨nnn, rfl⟩
  all_goals cases h

theorem touchedBy_delay (h : (touchedBy s i).delay) : ∃ x, i = .ldDTVx x := by
  cases i
  case ldDTVx x => exact ⟨x, rfl⟩
  all_goals cases h

theorem touchedBy_sound (h : (touchedBy s i).sound) : ∃ x, i = .ldSTVx x := by
  cases i
  case ldSTVx x => exact ⟨x, rfl⟩
  all_goals cases h

theorem touchedBy_index (h : (touchedBy s i).index) :
    (∃ nnn, i = .ldI nnn) ∨ (∃ x, i = .addI x ∨ i = .ldF x) ∨
      (s.cfg.memIncrementsI = true ∧ ∃ x, i = .storeBlock x ∨ i = .loadBlock x) := by
  cases i
  case ldI nnn => exact .inl ⟨nnn, rfl⟩
  case addI x => exact .inr (.inl ⟨x, .inl rfl⟩)
  case ldF x => exact .inr (.inl ⟨x, .inr rfl⟩)
  case storeBlock x => exact .inr (.inr ⟨h, x, .inl rfl⟩)
  case loadBlock x => exact .inr (.inr ⟨h, x, .inr rfl⟩)
  all_goals cases h

theorem touchedBy_draws (h : (touchedBy s i).draws) : ∃ x nn, i = .rnd x nn := by
  cases i
  case rnd x nn => exact ⟨x, nn, rfl⟩
  all_goals cases h

end

/-- Settles O53: what differs after an instruction is not in its frame's unchanged part, so the instruction may
touch it. -/
theorem onlyTheNamedInstructionsWrite : Obligations.OnlyTheNamedInstructionsWrite := by
  unfold Obligations.OnlyTheNamedInstructionsWrite
  intro i s t h
  obtain ⟨-, hindex, -, hstack, hcell, hpixels, hdirty, hdelay, hsound, -, -, -, -, -, hdraws⟩ := exec_frame i s t h
  refine ⟨?_, ?_, ?_, ?_, ?_, ?_, ?_, ?_⟩
  · rintro ⟨a, ha⟩
    exact touchedBy_cell (not_imp_comm.mp (hcell a) ha)
  · rintro ⟨px, py, hp⟩
    exact touchedBy_pixels (not_imp_comm.mp hpixels fun hall => hp (hall px py))
  · exact fun hd => touchedBy_pixels (touchedBy_dirty_iff.mp (not_imp_comm.mp hdirty hd))
  · exact fun hs => touchedBy_stack (not_imp_comm.mp hstack hs)
  · exact fun hd => touchedBy_delay (not_imp_comm.mp hdelay hd)
  · exact fun hs => touchedBy_sound (not_imp_comm.mp hsound hs)
  · exact fun hi => touchedBy_index (not_imp_comm.mp hindex hi)
  · exact fun hd => touchedBy_draws (not_imp_comm.mp hdraws hd)

/-! ### Bytes and words of memory -/

/-- A read takes its address modulo `MEM_SIZE`. -/
theorem memRead_mod_memSize (s : State) (a : Nat) : s.memRead (a % s.cfg.memSize) = s.memRead a :=
  congrArg (Cells.get (resetByte s.cfg) s.mem) (effectiveAddr_effectiveAddr s.cfg a)

/-- Settles O31: read after write, reduction of the address, and the frame of a byte write. -/
theorem byteReadAfterWrite : Obligations.ByteReadAfterWrite := by
  unfold Obligations.ByteReadAfterWrite
  intro s a b v
  exact ⟨s.memRead_memWrite a b v, memRead_mod_memSize s a, frame_memWrite s a v rfl⟩

theorem fetch16_toNat (s : State) (a : Nat) :
    (s.fetch16 a).toNat = (s.memRead a).toNat * 256 + (s.memRead (a + 1)).toNat :=
  append_toNat _ _

/-- Settles O32: the fetch as two byte reads, each of which reduces its own address. -/
theorem fetchIsBigEndian : Obligations.FetchIsBigEndian := by
  unfold Obligations.FetchIsBigEndian
  intro s a
  rw [memRead_mod_memSize, memRead_mod_memSize, fetch16_toNat]

/-- What a block store leaves in RAM: `V0 .. VX`, in the cells from `I` up. -/
theorem exec_storeBlock_memRead {x r : Reg} {s t : State} (h : exec (.storeBlock x) s = .next t)
    (hroom : x.val + 1 ≤ s.cfg.memSize) (hr : r ≤ x) : t.memRead (s.elementAddr r.val) = s.readV r := by
  cases h
  have hbyte := s.memRead_memWriteAll (s.elementAddr 0) r.val (s.firstRegs (x.val + 1))
    (by rw [length_firstRegs]; exact Nat.lt_succ_of_le hr) (by rwa [length_firstRegs])
  rw [State.advanceI_eq]
  refine hbyte.trans ?_
  simp [State.firstRegs, State.readV]

/-- Settles O33: the two bytes that the fetch reads are the two that the store wrote, for `PC` is `I`. -/
theorem storeIsSeenByTheNextFetch : Obligations.StoreIsSeenByTheNextFetch := by
  unfold Obligations.StoreIsSeenByTheNextFetch
  intro s t hcfg hpc h
  have hroom : (1 : Reg).val + 1 ≤ s.cfg.memSize := by
    obtain ⟨-, -, -, -, hfont, -⟩ := hcfg
    exact (Nat.le_add_left 2 (s.cfg.fontOffset + 78)).trans hfont
  have hfirst := exec_storeBlock_memRead (r := 0) h hroom (by decide)
  have hsecond := exec_storeBlock_memRead (r := 1) h hroom (by decide)
  rw [fetch16_toNat, exec_pc _ s t h rfl, hpc]
  exact congrArg₂ (fun high low : Byte => high.toNat * 256 + low.toNat) hfirst hsecond

end Sys2Proof.Machine
end

section
/-! PROOFS. The encoder and the decoder undo each other, and the decoder rejects the illegal words (spec
30_encoding.md R47, R48, R51, R52). -/

namespace Sys2Proof

open Sys2Proof.Spec

/-! ### From an instruction to its word and back -/

/-- One case per dispatch of the decoder: the fields of the packed word select the row again. -/
theorem decode_encode (i : Instr) (h : i.wellFormed = true) : decode (encode i) = .ok i := by
  cases i
  case cls | ret => rfl
  case jp | call | ldI | jpV0 => simp [encode, decode, fields_packNNN]
  case seByte | sneByte | ldByte | addByte | rnd => simp [encode, decode, fields_packXNN]
  case seReg | sneReg => simp [encode, decode, decodeXY0, fields_packXYN]
  case ldReg | orReg | andReg | xorReg | addReg | subReg | shrReg | subnReg | shlReg =>
    simp [encode, decode, decodeGroup8, fields_packXYN]
  case drw x y n =>
    have hn : n % 16 = n := Nat.mod_eq_of_lt (of_decide_eq_true h)
    simp [encode, decode, fields_packXYN, hn]
  case skp | sknp => simp [encode, decode, decodeGroupE, fields_packXNN]
  case ldVxDT | ldVxK | ldDTVx | ldSTVx | addI | ldF | ldB | storeBlock | loadBlock =>
    simp [encode, decode, decodeGroupF, fields_packXNN]

/-- Settles O1, by the dispatch of the decoder. -/
theorem decodeEncodeRoundTrip : Obligations.DecodeEncodeRoundTrip := by
  unfold Obligations.DecodeEncodeRoundTrip
  exact decode_encode

/-- Settles O5: each written-out word is the word of its instruction. -/
theorem writtenOutWordsDecode : Obligations.WrittenOutWordsDecode := by
  unfold Obligations.WrittenOutWordsDecode
  exact ⟨decode_encode .cls rfl, decode_encode .ret rfl, decode_encode (.jp 0xABC) rfl,
    decode_encode (.ldByte 10 0x05) rfl, decode_encode (.shlReg 10 11) rfl, decode_encode (.ldI 0x2F0) rfl,
    decode_encode (.drw 1 2 5) rfl, decode_encode (.skp 4) rfl, decode_encode (.ldVxK 3) rfl,
    decode_encode (.loadBlock 15) rfl⟩

/-! ### A word from its fields -/

/-- Settles O4, by the number that each field is. -/
theorem fieldsOfEveryWord : Obligations.FieldsOfEveryWord := by
  unfold Obligations.FieldsOfEveryWord
  intro w
  rw [fields_op_val, fields_x_val, fields_y_val, fields_n_val, fields_nn_toNat, fields_nnn_toNat]
  omega

section

variable {w : Word} {op : BitVec 4} (hop : (fields w).op.val = op.toNat)
include hop

theorem packNNN_fields : packNNN op (fields w).nnn = w := by
  apply BitVec.eq_of_toNat_eq
  rw [packNNN_toNat, ← hop, fields_op_val, fields_nnn_toNat]
  omega

theorem packXNN_fields {nn : Byte} (hnn : (fields w).nn = nn) : packXNN op (fields w).x nn = w := by
  apply BitVec.eq_of_toNat_eq
  rw [packXNN_toNat, ← hop, ← hnn, fields_op_val, fields_x_val, fields_nn_toNat]
  omega

theorem packXYN_fields {n : BitVec 4} (hn : (fields w).n.val = n.toNat) :
    packXYN op (fields w).x (fields w).y n = w := by
  apply BitVec.eq_of_toNat_eq
  rw [packXYN_toNat, ← hop, ← hn, fields_op_val, fields_x_val, fields_y_val, fields_n_val]
  omega

end

/-- The table of R52 reads the fields of the word. -/
theorem illegalWord_iff (w : Word) : IllegalWord w ↔
    IllegalIn (fields w).op.val (fields w).n.val (fields w).nn.toNat (fields w).nnn.toNat := by
  rw [fields_op_val, fields_n_val, fields_nn_toNat, fields_nnn_toNat, Nat.mod_eq_of_lt (by omega)]

/-! ### What the decoder answers -/

/-- What the decoder can answer for `w`: the instruction whose word `w` is, or that `w` is illegal. -/
inductive DecodeAnswer (w : Word) : Except Reject Instr → Prop
  | instruction {i : Instr} (legal : ¬ IllegalWord w) (word : encode i = w) (wf : i.wellFormed = true) :
      DecodeAnswer w (.ok i)
  | rejection (illegal : IllegalWord w) : DecodeAnswer w (.error (.unsupportedOpcode w))

section

variable {w : Word}

theorem decodeGroup0_answer (hop : (fields w).op.val = 0x0) : DecodeAnswer w (decodeGroup0 w (fields w)) := by
  have hill : IllegalWord w ↔ (fields w).nnn ≠ 0x0E0 ∧ (fields w).nnn ≠ 0x0EE := by
    simp [illegalWord_iff, IllegalIn, hop, BitVec.toNat_eq]
  unfold decodeGroup0
  split
  case h_1 hnnn | h_2 hnnn =>
    have hword := packNNN_fields (op := 0x0) hop
    rw [hnnn] at hword
    exact .instruction (by simp [hill, hnnn]) hword rfl
  case h_3 hcls hret => exact .rejection (hill.mpr ⟨hcls, hret⟩)

theorem decodeXY0_answer {i : Instr} (hop : (fields w).op.val = 0x5 ∨ (fields w).op.val = 0x9)
    (word : (fields w).n.val = 0 → encode i = w) (wf : i.wellFormed = true) :
    DecodeAnswer w (decodeXY0 w (fields w) i) := by
  have hill : IllegalWord w ↔ (fields w).n ≠ 0 := by
    rcases hop with hop | hop <;> simp [illegalWord_iff, IllegalIn, hop]
  unfold decodeXY0
  split
  case isTrue hn => exact .instruction (by simp [hill, hn]) (word (congrArg Fin.val hn)) wf
  case isFalse hn => exact .rejection (hill.mpr hn)

theorem decodeGroup8_answer (hop : (fields w).op.val = 0x8) : DecodeAnswer w (decodeGroup8 w (fields w)) := by
  have hill : IllegalWord w ↔ (fields w).n.val ∈ [0x8, 0x9, 0xA, 0xB, 0xC, 0xD, 0xF] := by
    simp [illegalWord_iff, IllegalIn, hop]
  unfold decodeGroup8
  split
  case h_1 hn | h_2 hn | h_3 hn | h_4 hn | h_5 hn | h_6 hn | h_7 hn | h_8 hn | h_9 hn =>
    exact .instruction (by simp [hill, hn]) (packXYN_fields hop hn) rfl
  case h_10 =>
    refine .rejection (hill.mpr ?_)
    simp only [List.mem_cons, List.not_mem_nil, or_false, imp_false] at *
    omega

theorem decodeGroupE_answer (hop : (fields w).op.val = 0xE) : DecodeAnswer w (decodeGroupE w (fields w)) := by
  have hill : IllegalWord w ↔ (fields w).nn ∉ [0x9E, 0xA1] := by
    simp [illegalWord_iff, IllegalIn, hop, BitVec.toNat_eq]
  unfold decodeGroupE
  split
  case h_1 hnn | h_2 hnn => exact .instruction (by simp [hill, hnn]) (packXNN_fields hop hnn) rfl
  case h_3 hskp hsknp => exact .rejection (hill.mpr (by simpa using ⟨hskp, hsknp⟩))

theorem decodeGroupF_answer (hop : (fields w).op.val = 0xF) : DecodeAnswer w (decodeGroupF w (fields w)) := by
  have hill : IllegalWord w ↔ (fields w).nn ∉ [0x07, 0x0A, 0x15, 0x18, 0x1E, 0x29, 0x33, 0x55, 0x65] := by
    simp [illegalWord_iff, IllegalIn, hop, BitVec.toNat_eq]
  unfold decodeGroupF
  split
  case h_1 hnn | h_2 hnn | h_3 hnn | h_4 hnn | h_5 hnn | h_6 hnn | h_7 hnn | h_8 hnn | h_9 hnn =>
    exact .instruction (by simp [hill, hnn]) (packXNN_fields hop hnn) rfl
  case h_10 => exact .rejection (hill.mpr (by simp_all))

end

/-- The row of the opcode map by the group digit; no digit is left for the decoder's last line. -/
theorem decode_answer (w : Word) : DecodeAnswer w (decode w) := by
  unfold decode
  dsimp only
  split
  -- the groups whose low digits select the row
  case h_1 hop => exact decodeGroup0_answer hop
  case h_9 hop => exact decodeGroup8_answer hop
  case h_15 hop => exact decodeGroupE_answer hop
  case h_16 hop => exact decodeGroupF_answer hop
  case h_6 hop => exact decodeXY0_answer (.inl hop) (fun hn => packXYN_fields hop hn) rfl
  case h_10 hop => exact decodeXY0_answer (.inr hop) (fun hn => packXYN_fields hop hn) rfl
  -- format NNN
  case h_2 hop | h_3 hop | h_11 hop | h_12 hop =>
    exact .instruction (by simp [illegalWord_iff, IllegalIn, hop]) (packNNN_fields hop) rfl
  -- format XNN
  case h_4 hop | h_5 hop | h_7 hop | h_8 hop | h_13 hop =>
    exact .instruction (by simp [illegalWord_iff, IllegalIn, hop]) (packXNN_fields hop rfl) rfl
  -- format XYN
  case h_14 hop =>
    have hn : (fields w).n.val = (BitVec.ofNat 4 (fields w).n.val).toNat := by simp
    have hrows : rowCountFits (fields w).n.val = true := decide_eq_true (fields w).n.isLt
    exact .instruction (by simp [illegalWord_iff, IllegalIn, hop]) (packXYN_fields hop hn) hrows
  case h_17 =>
    simp only [imp_false] at *
    omega

/-- Settles O2: the decoder answers no instruction but the one whose word it was given. -/
theorem encodeOfDecodedWord : Obligations.EncodeOfDecodedWord := by
  unfold Obligations.EncodeOfDecodedWord
  intro w i h
  have answer := decode_answer w
  rw [h] at answer
  cases answer with
  | instruction _ word wf => exact ⟨word, wf⟩

/-- Settles O3: the decoder answers an instruction for a legal word, and the rejection for an illegal one. -/
theorem rejectedWordsAreTheIllegalOnes : Obligations.RejectedWordsAreTheIllegalOnes := by
  unfold Obligations.RejectedWordsAreTheIllegalOnes
  intro w
  have answer := decode_answer w
  generalize decode w = r at answer ⊢
  cases answer with
  | instruction legal _ _ => exact ⟨fun illegal => absurd illegal legal, fun _ => ⟨_, rfl⟩⟩
  | rejection illegal => exact ⟨fun _ => rfl, fun legal => absurd illegal legal⟩

end Sys2Proof
end

section
/-! PROOFS. One `Step` and one `Update`: when they are refused, how a step ends, the budget, and where an `Update`
stops (spec 40_engine_cycle.md R61 to R69, 60_exceptions.md R131, R142, R143). -/

namespace Sys2Proof.Machine

open Sys2Proof.Config Sys2Proof.Spec

/-! ### What is refused, and what an `Update` runs -/

theorem exists_notReady {s : State} (h : s.engine ≠ .ready) : ∃ r, s.notReady = some r :=
  Option.ne_none_iff_exists'.mp (mt s.notReady_eq_none.mp h)

theorem step_of_not_ready {s : State} (h : s.engine ≠ .ready) : ∃ r, step s = .refused r := by
  obtain ⟨r, hr⟩ := exists_notReady h
  exact ⟨r, by rw [step, hr]⟩

theorem update_of_not_ready {s : State} (t : HostReal) (writes : List (List KeyWrite)) (h : s.engine ≠ .ready) :
    ∃ r, update t writes s = .refused r := by
  obtain ⟨r, hr⟩ := exists_notReady h
  exact ⟨r, by unfold update; rw [hr]⟩

theorem update_nonFinite {s : State} (writes : List (List KeyWrite)) (h : s.engine = .ready) :
    update .nonFinite writes s = .refused .nonFiniteElapsedTime := by
  unfold update
  rw [s.notReady_eq_none.mpr h]

theorem update_finite {s : State} (t : Rat) (writes : List (List KeyWrite)) (h : s.engine = .ready) :
    update (.finite t) writes s =
      finishUpdate (runSteps writes (s.setDirty false) (instructionCount s.targetFreq t)) := by
  unfold update
  rw [s.notReady_eq_none.mpr h]

theorem finishUpdate_of_ready {s : State} (h : s.engine = .ready) : finishUpdate (.next s) = .next s.timerTick :=
  if_pos h

theorem finishUpdate_of_not_ready {s : State} (h : s.engine ≠ .ready) : finishUpdate (.next s) = .next s :=
  if_neg h

/-- Settles O8: neither operation looks further than the engine state. -/
theorem notReadyIsRefused : Obligations.NotReadyIsRefused := by
  unfold Obligations.NotReadyIsRefused
  exact fun s h => ⟨step_of_not_ready h, fun t writes => update_of_not_ready t writes h⟩

/-! ### One step of a `Ready` engine -/

/-- Settles O6, by whether the fetched word decodes; the advanced `PC` less 2 is the address it came from. -/
theorem stepRunsTheFetchedInstruction : Obligations.StepRunsTheFetchedInstruction := by
  unfold Obligations.StepRunsTheFetchedInstruction
  intro s hready
  constructor
  · exact fun i hi => step_of_decoded s i hready hi
  · intro e he
    have haddr : s.advancePC.instrAddr = s.pc := BitVec.add_sub_cancel s.pc 2
    rw [step_of_rejected s e hready he, raiseUnsupported, haddr]
    rfl

/-- The instructions whose execution in `s` is a fault: a call at capacity, a return on an empty stack. -/
def stackFaults (s : State) : Instr → Prop
  | .call _ => s.cfg.stackDepth ≤ s.stack.length
  | .ret => s.stack = []
  | _ => False

theorem exec_faulted_of_stackFaults {i : Instr} {s t : State} (h : exec i s = .next t) (hf : stackFaults s i) :
    t.engine = .faulted := by
  cases i
  case ret =>
    obtain ⟨a, rest, htop, -⟩ | ⟨-, rfl⟩ := execRet_cases s t h
    · cases htop.symm.trans hf
    · rfl
  case call nnn =>
    obtain ⟨hroom, -⟩ | ⟨-, rfl⟩ := execCall_cases nnn s t h
    · exact absurd hroom (Nat.not_lt.mpr hf)
    · rfl
  all_goals cases hf

theorem exec_engine_of_untouched {i : Instr} {s t : State} (h : exec i s = .next t)
    (hi : ¬ (touchedBy s i).engine) : t.engine = s.engine := by
  obtain ⟨-, -, -, -, -, -, -, -, -, -, -, -, hengine, -⟩ := exec_frame i s t h
  exact (hengine hi).1

/-- By the frames only a return and a call may touch the engine, and they do so only by a stack fault. -/
theorem exec_engine_of_not_stackFaults {i : Instr} {s t : State} (h : exec i s = .next t)
    (hf : ¬ stackFaults s i) : t.engine = s.engine := by
  cases i
  case ret =>
    obtain ⟨a, rest, -, rfl⟩ | ⟨hempty, -⟩ := execRet_cases s t h
    · rfl
    · exact absurd hempty hf
  case call nnn =>
    obtain ⟨-, rfl⟩ | ⟨hfull, -⟩ := execCall_cases nnn s t h
    · rfl
    · exact absurd (Nat.not_lt.mp hfull) hf
  all_goals exact exec_engine_of_untouched h not_false

/-- For an instruction that was decoded, the stack stops of `ReadyEndsOnlyInTheThreeStepFaults` are its stack
faults. -/
theorem stackFaults_iff (s : State) {w : Word} {i : Instr} (hi : decode w = .ok i) :
    ((∃ nnn, decode w = .ok (.call nnn)) ∧ s.cfg.stackDepth ≤ s.stack.length ∨
      decode w = .ok .ret ∧ s.stack = []) ↔ stackFaults s i := by
  rw [hi]
  cases i <;> simp [stackFaults]

/-- Settles O9: the decoder answers an instruction or the word is illegal, and an instruction leaves the engine
`Ready` but for its stack faults. -/
theorem readyEndsOnlyInTheThreeStepFaults : Obligations.ReadyEndsOnlyInTheThreeStepFaults := by
  unfold Obligations.ReadyEndsOnlyInTheThreeStepFaults
  intro s hready w stops
  have answer := decode_answer w
  cases hdecode : decode w with
  | error e =>
    rw [hdecode] at answer
    cases answer with
    | rejection illegal =>
      exact ⟨_, step_of_rejected s _ hready hdecode, fun _ => rfl, fun h => absurd (.inl illegal) h⟩
  | ok i =>
    rw [hdecode] at answer
    cases answer with
    | instruction legal =>
      obtain ⟨t, ht⟩ := exec_next i s.advancePC
      have hstops : stops ↔ stackFaults s.advancePC i :=
        (or_iff_right legal).trans (stackFaults_iff s.advancePC hdecode)
      refine ⟨t, (step_of_decoded s i hready hdecode).trans ht, fun h => ?_, fun h => ?_⟩
      · exact exec_faulted_of_stackFaults ht (hstops.mp h)
      · exact (exec_engine_of_not_stackFaults ht (mt hstops.mpr h)).trans hready

/-! ### The budget -/

/-- The budget by Mathlib's floor into the natural numbers, which is 0 below 0. -/
theorem instructionCount_eq (f t : Rat) : instructionCount f t = max 1 ⌊f * t / 1000⌋₊ := rfl

theorem lt_instructionCount_add_one (f t : Rat) : f * t / 1000 < instructionCount f t + 1 := by
  have hle : ⌊f * t / 1000⌋₊ ≤ instructionCount f t := le_max_right _ _
  exact (Nat.lt_floor_add_one _).trans_le (by gcongr)

theorem instructionCount_eq_one_or_le (f t : Rat) :
    instructionCount f t = 1 ∨ (instructionCount f t : Rat) ≤ f * t / 1000 := by
  rw [instructionCount_eq]
  rcases le_total ⌊f * t / 1000⌋₊ 1 with hsmall | hlarge
  · exact .inl (max_eq_left hsmall)
  · rw [max_eq_right hlarge]
    exact .inr (Nat.floor_le (zero_le_one.trans ((Nat.one_le_floor_iff _).mp hlarge)))

/-- A step is run even for a time that is not positive. -/
theorem instructionCount_of_nonpos {f t : Rat} (hf : 0 ≤ f) (ht : t ≤ 0) : instructionCount f t = 1 := by
  have hq : f * t / 1000 ≤ 0 := div_nonpos_of_nonpos_of_nonneg (mul_nonpos_of_nonneg_of_nonpos hf ht) (by norm_num)
  rw [instructionCount_eq, Nat.floor_of_nonpos hq]
  rfl

/-- Settles O42, from the bounds of the floor. -/
theorem instructionBudget : Obligations.InstructionBudget := by
  unfold Obligations.InstructionBudget
  constructor
  · intro f t
    exact ⟨le_max_left _ _, lt_instructionCount_add_one f t, instructionCount_eq_one_or_le f t,
      fun hf ht => instructionCount_of_nonpos hf ht.le⟩
  · exact fun s writes h => update_nonFinite writes h

/-! ### The steps of an `Update` -/

/-- After steps that all end `Ready`, the rest of the budget runs from where they end. -/
theorem runSteps_add {writes : List (List KeyWrite)} {k : Nat} {s m : State} (h : StepsReady writes k s m)
    (n : Nat) : runSteps writes s (k + n) = runSteps (writes.drop k) m n := by
  induction k generalizing writes s with
  | zero =>
    cases h
    rw [Nat.zero_add, List.drop_zero]
  | succ k ih =>
    obtain ⟨s', hstep, hready, hrest⟩ := h
    rw [Nat.add_right_comm, runSteps, hstep, ← List.drop_tail, ← ih hrest]
    exact if_pos hready

theorem stepsReady_engine {writes : List (List KeyWrite)} {k : Nat} {s m : State} (h : StepsReady writes k s m)
    (hs : s.engine = .ready) : m.engine = .ready := by
  induction k generalizing writes s with
  | zero => exact h ▸ hs
  | succ k ih =>
    obtain ⟨s', -, hready, hrest⟩ := h
    exact ih hrest hready

/-- A step that faults is the last. -/
theorem runSteps_of_fault {writes : List (List KeyWrite)} {s u : State}
    (hstep : step (s.applyKeys (writes.headD [])) = .next u) (hu : u.engine ≠ .ready) (n : Nat) :
    runSteps writes s (n + 1) = .next u := by
  rw [runSteps, hstep]
  exact if_neg hu

/-! ### The timer tick at its end -/

theorem tick_toNat (b : Byte) : (tick b).toNat = b.toNat - 1 := by
  unfold tick
  split <;> bv_omega

theorem frame_timerTick (s : State) : Frame { delay := True, sound := True } s s.timerTick :=
  frame_trans not_false (frame_setDT s _ trivial) (frame_setST _ _ trivial)

/-- Settles O43: the whole budget runs to `u`, which is `Ready`, and then the timers tick. -/
theorem updateRunsItsBudgetThenTicks : Obligations.UpdateRunsItsBudgetThenTicks := by
  unfold Obligations.UpdateRunsItsBudgetThenTicks
  intro s u t writes hready hsteps
  have hrun : runSteps writes (s.setDirty false) (instructionCount s.targetFreq t) = .next u := runSteps_add hsteps 0
  refine ⟨u.timerTick, ?_, tick_toNat u.dt, tick_toNat u.st, frame_timerTick u⟩
  rw [update_finite t writes hready, hrun, finishUpdate_of_ready (stepsReady_engine hsteps hready)]

/-- Settles O44: the budget is the `k` steps, the step that faults, and a rest that does not run. -/
theorem faultEndsTheUpdate : Obligations.FaultEndsTheUpdate := by
  unfold Obligations.FaultEndsTheUpdate
  intro s m u t writes k hready hbudget hsteps hstep hfault
  obtain ⟨rest, hrest⟩ : ∃ rest, instructionCount s.targetFreq t = k + (rest + 1) :=
    Nat.exists_eq_add_of_lt hbudget
  have hu : u.engine ≠ .ready := by rw [hfault]; decide
  have hrun : runSteps writes (s.setDirty false) (k + (rest + 1)) = .next u :=
    (runSteps_add hsteps _).trans (runSteps_of_fault hstep hu rest)
  rw [update_finite t writes hready, hrest, hrun, finishUpdate_of_not_ready hu]

end Sys2Proof.Machine
end

section
/-! PROOFS. What the host can do besides a step: `SetKey`, the reads, and every operation together keeping the
invariant (spec 40_engine_cycle.md R61, R70, R71, R73, 10_state.md R27). -/

namespace Sys2Proof.Machine

open Sys2Proof.Config Sys2Proof.Spec

/-! ### `SetKey` and the reads -/

theorem setKey_of_loaded {s : State} (k : Key) (b : Bool) (h : s.loaded = true) :
    setKey k b s = .next (s.setKeySlot k b) :=
  if_pos h

theorem setKey_of_not_loaded {s : State} (k : Key) (b : Bool) (h : s.loaded = false) :
    setKey k b s = .refused .notLoaded :=
  if_neg (Bool.eq_false_iff.mp h)

theorem frame_setKeySlot (s : State) (k : Key) (b : Bool) : Frame { keys := True } s (s.setKeySlot k b) := by
  simp [Frame]

/-- Settles O57, by whether a `Load` has succeeded. -/
theorem setKeyWritesOneSlot : Obligations.SetKeyWritesOneSlot := by
  unfold Obligations.SetKeyWritesOneSlot
  intro k b s
  constructor
  · exact fun h => ⟨_, setKey_of_loaded k b h, fun j => s.readKey_setKeySlot k j b, frame_setKeySlot s k b⟩
  · exact setKey_of_not_loaded k b

/-- Settles O60: each read is legal in the state named, and answers the item. -/
theorem hostReadsPixelsFlagAndFault : Obligations.HostReadsPixelsFlagAndFault := by
  unfold Obligations.HostReadsPixelsFlagAndFault
  intro s
  refine ⟨fun hloaded => ⟨?_, fun px py hx hy => ?_⟩, rfl, fun hfaulted => ?_⟩
  · simp [hostRead, observe, hloaded]
  · simp [hostRead, observe, hloaded, hx, hy]
  · simp [hostRead, observe, hfaulted]

/-! ### What a `Load` leaves -/

/-- One line of the checks: it raises nothing when its condition fails and the lines after it raise nothing. -/
theorem check_eq_none {p : Prop} [Decidable p] {f : Fault} {rest : Option Fault} :
    (if p then some f else rest) = none ↔ ¬ p ∧ rest = none := by
  split <;> simp [*]

/-- What one line of the checks raises is its own fault or comes from the lines after it. -/
theorem eq_or_of_check_eq_some {p : Prop} [Decidable p] {f g : Fault} {rest : Option Fault}
    (h : (if p then some f else rest) = some g) : f = g ∨ rest = some g := by
  split at h
  · exact .inl (Option.some.inj h)
  · exact .inr h

/-- A `Load` that raises nothing has passed the ten checks. -/
theorem checksHold_of_no_fault {c : RawCfg} {len : Nat} (h : loadFault c len = none) : ChecksHold 10 c len := by
  unfold loadFault at h
  simp only [check_eq_none, not_not, and_true] at h
  obtain ⟨hmem, hprog, hfont, hstack, hwidth, hheight, hfreq, hvariant, hapart, hfontFits, hprogFits⟩ := h
  exact ⟨fun _ => hmem, fun _ => hprog, fun _ => hfont, fun _ => hstack, fun _ => ⟨hwidth, hheight⟩,
    fun _ => (isNonNegative_iff _).mp hfreq, fun _ => by simpa using hvariant,
    fun _ => mt (regionsOverlap_iff c len).mpr hapart, fun _ => not_lt.mp hfontFits, fun _ => not_lt.mp hprogFits⟩

/-- What `Load` raises is a load fault. -/
theorem loadFault_code {c : RawCfg} {len : Nat} {f : Fault} (h : loadFault c len = some f) :
    f.code = 4 ∨ f.code = 5 := by
  unfold loadFault at h
  iterate 11
    obtain rfl | h := eq_or_of_check_eq_some h
    · simp [Fault.code]
  cases h

/-- A configuration that passes the checks is valid when it is latched. -/
theorem cfgValid_latch {c : RawCfg} {len : Nat} (h : ChecksHold 10 c len) : CfgValid (latch c) := by
  obtain ⟨hmem, hprog, hfont, hstack, hdisplay, ⟨f, hfreq, hnonneg⟩, -, -, hfontFits, -⟩ := checksHold_all h
  have hreal : 0 ≤ realValue c.targetFreqInit := hfreq ▸ hnonneg
  simp only [CfgValid, latch, hreal, and_true]
  omega

/-- A `Load` that passes the checks establishes the invariant, from any state. -/
theorem load_inv {c : RawCfg} {program : List Byte} (s : State) (h : ChecksHold 10 c program.length) :
    (load c program s).Inv := by
  have hlatched : ChecksHold 10 (rawOf (latch c)) program.length := by rwa [rawOf_latch h]
  obtain ⟨-, -, -, hfits, -⟩ := regions_of_checksHold hlatched
  obtain ⟨hcfg, -, hrest⟩ := afterLoad_inv (cfgValid_latch h) s.draws
  rw [load_of_checksHold s h]
  exact ⟨hcfg, Memory.place_wf (latch c) [] _ program hfits rfl, hrest⟩

/-! ### The invariant under each host operation -/

theorem State.Inv.setDirty {s : State} (h : s.Inv) (b : Bool) : (s.setDirty b).Inv := h

theorem State.Inv.timerTick {s : State} (h : s.Inv) : s.timerTick.Inv := h

theorem State.Inv.setKeySlot {s : State} (h : s.Inv) (k : Key) (b : Bool) : (s.setKeySlot k b).Inv := h

theorem State.Inv.applyKeys {s : State} (h : s.Inv) (ws : List KeyWrite) : (s.applyKeys ws).Inv := by
  rw [s.applyKeys_frame ws]
  exact h

theorem State.Inv.setTargetFreq {s : State} (h : s.Inv) {f : Rat} (hf : 0 ≤ f) :
    ({ s with targetFreq := f } : State).Inv := by
  obtain ⟨hcfg, hmem, hfb, hstack, -, hrest⟩ := h
  exact ⟨hcfg, hmem, hfb, hstack, hf, hrest⟩

theorem runSteps_inv {writes : List (List KeyWrite)} {s t : State} {count : Nat} (hs : s.Inv)
    (h : runSteps writes s count = .next t) : t.Inv := by
  induction count generalizing writes s with
  | zero =>
    cases h
    exact hs
  | succ count ih =>
    rw [runSteps] at h
    split at h
    case h_1 m hm =>
      have hinv : m.Inv := stepKeepsTheInvariant _ m (hs.applyKeys _) hm
      split at h
      · exact ih hinv h
      · cases h
        exact hinv
    all_goals cases h

theorem finishUpdate_inv {o : Host.Outcome State Fault Refusal} {t : State} (ho : ∀ s, o = .next s → s.Inv)
    (h : finishUpdate o = .next t) : t.Inv := by
  cases o with
  | next s =>
    by_cases hready : s.engine = .ready
    · cases (finishUpdate_of_ready hready).symm.trans h
      exact (ho s rfl).timerTick
    · cases (finishUpdate_of_not_ready hready).symm.trans h
      exact ho _ rfl
  | fault r => cases h
  | refused r => cases h

theorem update_inv {t : HostReal} {writes : List (List KeyWrite)} {s u : State} (hs : s.Inv)
    (h : update t writes s = .next u) : u.Inv := by
  by_cases hready : s.engine = .ready
  · cases t with
    | finite t =>
      rw [update_finite t writes hready] at h
      exact finishUpdate_inv (fun m hm => runSteps_inv (hs.setDirty false) hm) h
    | nonFinite => cases (update_nonFinite writes hready).symm.trans h
  · obtain ⟨r, hr⟩ := update_of_not_ready t writes hready
    cases hr.symm.trans h

theorem setKey_inv {k : Key} {b : Bool} {s t : State} (hs : s.Inv) (h : setKey k b s = .next t) : t.Inv := by
  have ⟨_, _, _, _, _, _, _, hloaded⟩ := hs
  cases (setKey_of_loaded k b hloaded).symm.trans h
  exact hs.setKeySlot k b

/-- All that `SetTargetFreq` can do. -/
theorem setTargetFreq_cases {f : HostReal} {s t : State} (h : setTargetFreq f s = .next t) :
    ∃ q, f = .finite q ∧ 0 ≤ q ∧ t = { s with targetFreq := q } := by
  unfold setTargetFreq at h
  split at h
  · cases h
  · split at h
    case isTrue hf =>
      obtain ⟨q, rfl, hq⟩ := (isNonNegative_iff f).mp hf
      cases h
      exact ⟨q, rfl, hq, rfl⟩
    case isFalse => cases h

theorem setTargetFreq_inv {f : HostReal} {s t : State} (hs : s.Inv) (h : setTargetFreq f s = .next t) : t.Inv := by
  obtain ⟨q, -, hq, rfl⟩ := setTargetFreq_cases h
  exact hs.setTargetFreq hq

/-- Settles O50, operation by operation; a `Load` by whether its checks raise a fault. -/
theorem hostOperationsKeepTheInvariant : Obligations.HostOperationsKeepTheInvariant := by
  unfold Obligations.HostOperationsKeepTheInvariant
  intro op s t hs h
  cases op with
  | load c program =>
    cases h
    cases hfault : loadFault c program.length with
    | none => exact .inl (load_inv s (checksHold_of_no_fault hfault))
    | some f =>
      rw [load_of_fault c program s f hfault]
      exact .inr ⟨rfl, f, rfl, loadFault_code hfault⟩
  | update millis writes => exact .inl (update_inv hs h)
  | step => exact .inl (stepKeepsTheInvariant s t hs h)
  | setKey k b => exact .inl (setKey_inv hs h)
  | setTargetFreq f => exact .inl (setTargetFreq_inv hs h)

end Sys2Proof.Machine
end

section
/-! PROOFS. Return, jumps, call and skips: the word of each, the `PC` and stack it leaves, and its frame (spec
41_control_flow.md R76 to R84). -/

namespace Sys2Proof.Machine

open Sys2Proof.Config Sys2Proof.Spec

/-! ### The words -/

theorem decode_of_eq_encode {w : Word} {i : Instr} (hw : w = encode i) (hi : i.wellFormed = true) :
    decode w = .ok i :=
  hw ▸ decode_encode i hi

theorem wordXYN_toNat {op n : Nat} (x y : Reg) (hop : op < 16) (hn : n < 16) :
    (wordXYN op x y n).toNat = op * 0x1000 + x.val * 0x100 + y.val * 0x10 + n := by
  rw [wordXYN, BitVec.toNat_ofNat]
  omega

/-- `5XYN` and `9XYN` with `N` not 0 are lines of the table of R52. -/
theorem illegalWord_wordXYN {op n : Nat} (x y : Reg) (hop : op = 0x5 ∨ op = 0x9) (hpos : 0 < n) (hn : n < 16) :
    IllegalWord (wordXYN op x y n) := by
  have hw := wordXYN_toNat x y (by omega : op < 16) hn
  have hgroup : (wordXYN op x y n).toNat / 0x1000 = op := by omega
  have hlow : (wordXYN op x y n).toNat % 0x10 ≠ 0 := by omega
  rcases hop with rfl | rfl
  · exact .inr (.inl ⟨hgroup, hlow⟩)
  · exact .inr (.inr (.inr (.inl ⟨hgroup, hlow⟩)))

/-! ### Operands as numbers -/

@[simp] theorem zext8_toNat (b : Byte) : (zext8 b).toNat = b.toNat :=
  BitVec.toNat_setWidth_of_le (by decide)

@[simp] theorem zext12_toNat (nnn : Addr12) : (zext12 nnn).toNat = nnn.toNat :=
  BitVec.toNat_setWidth_of_le (by decide)

theorem offsetReg_val (c : Cfg) (nnn : Addr12) :
    (offsetReg c nnn).val = if c.jumpUsesVX then nnn.toNat / 0x100 else 0 := by
  unfold offsetReg
  split
  · have hnibble : nnn.toNat / 0x100 < 16 := by omega
    simpa [Nat.shiftRight_eq_div_pow] using hnibble
  · rfl

theorem offsetTarget_toNat (s : State) (nnn : Addr12) :
    (s.offsetTarget nnn).toNat = ((s.readV (offsetReg s.cfg nnn)).toNat + nnn.toNat) % 65536 := by
  rw [State.offsetTarget, BitVec.toNat_add, zext8_toNat, zext12_toNat]

/-! ### What a return and a call answer -/

section

variable {s : State}

theorem exec_ret_of_cons {a : Word} {rest : List Word} (h : s.stack = a :: rest) :
    exec .ret s = .next { s with pc := a, stack := rest } := by
  obtain ⟨t, ht⟩ := exec_next .ret s
  obtain ⟨a', rest', htop, rfl⟩ | ⟨hempty, -⟩ := execRet_cases s t ht
  · cases h.symm.trans htop
    exact ht
  · cases h.symm.trans hempty

theorem exec_ret_of_empty (h : s.stack = []) :
    exec .ret s = .next (s.enterFault (.stackUnderflow s.instrAddr (encode .ret))) := by
  obtain ⟨t, ht⟩ := exec_next .ret s
  obtain ⟨a, rest, htop, -⟩ | ⟨-, rfl⟩ := execRet_cases s t ht
  · cases h.symm.trans htop
  · exact ht

theorem exec_call_of_room (nnn : Addr12) (h : s.stack.length < s.cfg.stackDepth) :
    exec (.call nnn) s = .next { s with pc := zext12 nnn, stack := s.pc :: s.stack } := by
  obtain ⟨t, ht⟩ := exec_next (.call nnn) s
  obtain ⟨-, rfl⟩ | ⟨hfull, -⟩ := execCall_cases nnn s t ht
  · exact ht
  · exact absurd h hfull

theorem exec_call_of_full (nnn : Addr12) (h : s.cfg.stackDepth ≤ s.stack.length) :
    exec (.call nnn) s = .next (s.enterFault (.stackOverflow s.instrAddr (encode (.call nnn)))) := by
  obtain ⟨t, ht⟩ := exec_next (.call nnn) s
  obtain ⟨hroom, -⟩ | ⟨-, rfl⟩ := execCall_cases nnn s t ht
  · exact absurd hroom (Nat.not_lt.mpr h)
  · exact ht

end

/-! ### Where a skip goes on -/

theorem skipIf_pc_toNat (s : State) (taken : Bool) :
    (s.skipIf taken).pc.toNat = if taken then (s.pc.toNat + 2) % 65536 else s.pc.toNat := by
  cases taken
  · rfl
  · exact BitVec.toNat_add s.pc 2

theorem skipIf_beq_pc_toNat (s : State) (a b : Byte) :
    (s.skipIf (a == b)).pc.toNat = if a = b then (s.pc.toNat + 2) % 65536 else s.pc.toNat := by
  simp [skipIf_pc_toNat]

theorem skipIf_bne_pc_toNat (s : State) (a b : Byte) :
    (s.skipIf (a != b)).pc.toNat = if a = b then s.pc.toNat else (s.pc.toNat + 2) % 65536 := by
  simp [skipIf_pc_toNat]

/-! ### The obligations -/

/-- Settles O10, by whether the stack is empty. -/
theorem returnPopsIntoPC : Obligations.ReturnPopsIntoPC := by
  unfold Obligations.ReturnPopsIntoPC
  refine ⟨decode_encode .ret rfl, fun s => ⟨fun a rest htop => ?_, fun hempty => ?_⟩⟩
  · exact ⟨_, exec_ret_of_cons htop, rfl, rfl, frame_setPC_stack s a rest trivial trivial⟩
  · exact ⟨_, exec_ret_of_empty hempty, rfl, ⟨_, _, rfl⟩, frame_enterFault s _ trivial⟩

/-- Settles O11: the word of `JP`, and the target as a number. -/
theorem jumpSetsPC : Obligations.JumpSetsPC := by
  unfold Obligations.JumpSetsPC
  intro nnn s
  exact ⟨decode_of_eq_encode (wordNNN_eq 0x1 nnn) rfl, _, rfl, zext12_toNat nnn, frame_setPC s _ trivial⟩

/-- Settles O12, by whether the stack has room. -/
theorem callPushesPC : Obligations.CallPushesPC := by
  unfold Obligations.CallPushesPC
  intro nnn s
  refine ⟨decode_of_eq_encode (wordNNN_eq 0x2 nnn) rfl, fun hroom => ?_, fun hfull => ?_⟩
  · exact ⟨_, exec_call_of_room nnn hroom, zext12_toNat nnn, rfl, frame_setPC_stack s _ _ trivial trivial⟩
  · exact ⟨_, exec_call_of_full nnn hfull.ge, rfl, ⟨_, _, rfl⟩, frame_enterFault s _ trivial⟩

/-- Settles O14: both skips are `skipIf` of their test. -/
theorem skipOnByte : Obligations.SkipOnByte := by
  unfold Obligations.SkipOnByte
  intro x nn s
  exact ⟨decode_of_eq_encode (wordXNN_eq 0x3 x nn) rfl,
    ⟨_, rfl, skipIf_beq_pc_toNat s _ _, frame_skipIf s _ trivial⟩,
    decode_of_eq_encode (wordXNN_eq 0x4 x nn) rfl,
    ⟨_, rfl, skipIf_bne_pc_toNat s _ _, frame_skipIf s _ trivial⟩⟩

/-- Settles O15: both skips are `skipIf` of their test, and the words with another `N` are illegal. -/
theorem skipOnRegister : Obligations.SkipOnRegister := by
  unfold Obligations.SkipOnRegister
  intro x y s
  refine ⟨decode_of_eq_encode (wordXYN_eq 0x5 x y 0x0) rfl,
    ⟨_, rfl, skipIf_beq_pc_toNat s _ _, frame_skipIf s _ trivial⟩,
    decode_of_eq_encode (wordXYN_eq 0x9 x y 0x0) rfl,
    ⟨_, rfl, skipIf_bne_pc_toNat s _ _, frame_skipIf s _ trivial⟩, fun n hpos hn => ⟨?_, ?_⟩⟩
  · exact (rejectedWordsAreTheIllegalOnes _).1 (illegalWord_wordXYN x y (.inl rfl) hpos hn)
  · exact (rejectedWordsAreTheIllegalOnes _).1 (illegalWord_wordXYN x y (.inr rfl) hpos hn)

/-- Settles O16: the register that the toggle chooses is the one the model adds. -/
theorem jumpWithOffset : Obligations.JumpWithOffset := by
  unfold Obligations.JumpWithOffset
  intro nnn s r hr
  obtain rfl : r = offsetReg s.cfg nnn := Fin.ext (hr.trans (offsetReg_val s.cfg nnn).symm)
  exact ⟨decode_of_eq_encode (wordNNN_eq 0xB nnn) rfl, _, rfl, offsetTarget_toNat s nnn, frame_setPC s _ trivial⟩

/-- Settles O17: the call leaves the `PC` it saw on top of the stack, and the return pops it. -/
theorem callThenReturnComesBack : Obligations.CallThenReturnComesBack := by
  unfold Obligations.CallThenReturnComesBack
  intro nnn s t hroom hcall u hu
  cases (exec_call_of_room nnn hroom).symm.trans hcall
  exact ⟨_, exec_ret_of_cons hu, rfl, rfl⟩

end Sys2Proof.Machine
end

section
/-! PROOFS. Register loads, arithmetic, logic, shifts and random: results and flags as numbers, the registers that a
flag writer leaves, and its frame (spec 42_alu.md R90 to R103). -/

namespace Sys2Proof.Machine

open Sys2Proof.Config Sys2Proof.Spec

/-! ### Results as numbers -/

theorem addResult_toNat (a b : Byte) : (addResult a b).toNat = (a.toNat + b.toNat) % 256 :=
  BitVec.toNat_ofNat _ 8

theorem subResult_toNat (a b : Byte) :
    (subResult a b).toNat = if b.toNat ≤ a.toNat then a.toNat - b.toNat else a.toNat + 256 - b.toNat := by
  rw [subResult, BitVec.toNat_ofNat]
  split <;> omega

theorem shrResult_toNat (t : Byte) : (shrResult t).toNat = t.toNat / 2 :=
  BitVec.toNat_ushiftRight t 1

theorem shlResult_toNat (t : Byte) : (shlResult t).toNat = t.toNat * 2 % 256 := by
  rw [shlResult, BitVec.toNat_shiftLeft, Nat.shiftLeft_eq]

/-! ### Flags as comparisons -/

theorem addCarry_iff (a b : Byte) : addCarry a b = true ↔ 255 < a.toNat + b.toNat :=
  decide_eq_true_iff

theorem subNoBorrow_iff (a b : Byte) : subNoBorrow a b = true ↔ b.toNat ≤ a.toNat :=
  decide_eq_true_iff

theorem shrOut_iff (t : Byte) : shrOut t = true ↔ t.toNat % 2 = 1 := by
  rw [shrOut, BitVec.getLsbD, Nat.testBit_zero, decide_eq_true_iff]

theorem shlOut_iff (t : Byte) : shlOut t = true ↔ 128 ≤ t.toNat := by
  rw [shlOut, BitVec.getLsbD, Nat.testBit_eq_decide_div_mod_eq, decide_eq_true_iff]
  omega

theorem flagByte_toNat (flag : Bool) : (flagByte flag).toNat = if flag then 1 else 0 := by
  cases flag <;> rfl

/-! ### The registers left -/

theorem State.readV_writeV_same (s : State) (x : Reg) (b : Byte) : (s.writeV x b).readV x = b := by
  rw [State.readV_writeV, if_pos rfl]

/-- The value that the shifts work on, as a number. -/
theorem shiftSource_toNat (s : State) (x y : Reg) :
    (s.shiftSource x y).toNat = if s.cfg.shiftUsesVY then (s.readV y).toNat else (s.readV x).toNat :=
  apply_ite BitVec.toNat _ _ _

section

variable {s : State} {x : Reg} {result : Byte} {flag : Bool} {n : Nat} {p : Prop} [Decidable p]

/-- The result is written before the flag, so a read meets the flag first (R102). -/
theorem readV_writeResultFlag_toNat (hresult : result.toNat = n) (hflag : flag = true ↔ p) (r : Reg) :
    ((s.writeResultFlag x result flag).readV r).toNat = resultThenFlag s x n p r := by
  rw [State.writeResultFlag, State.readV_writeVF, State.readV_writeV, resultThenFlag]
  split
  · simp only [flagByte_toNat, hflag]
  · split
    · exact hresult
    · rfl

/-- What an instruction that ends in `writeResultFlag` answers, for all five flag writers. -/
theorem resultThenFlag_of_exec {i : Instr} (h : exec i s = .next (s.writeResultFlag x result flag))
    (hresult : result.toNat = n) (hflag : flag = true ↔ p) :
    ∃ t, exec i s = .next t ∧ (∀ r, (t.readV r).toNat = resultThenFlag s x n p r) ∧
      Frame { reg := fun r => r = x ∨ r = 15 } s t :=
  ⟨_, h, readV_writeResultFlag_toNat hresult hflag, frame_writeResultFlag s _ _ not_false (.inl rfl) (.inr rfl)⟩

end

/-! ### The obligations -/

/-- Settles O18: each is one register write. -/
theorem loadByteAndCopy : Obligations.LoadByteAndCopy := by
  unfold Obligations.LoadByteAndCopy
  intro x y nn s
  exact ⟨decode_of_eq_encode (wordXNN_eq 0x6 x nn) rfl,
    ⟨_, rfl, s.readV_writeV_same x _, frame_writeV s _ rfl⟩,
    decode_of_eq_encode (wordXYN_eq 0x8 x y 0x0) rfl,
    ⟨_, rfl, s.readV_writeV_same x _, frame_writeV s _ rfl⟩⟩

/-- Settles O19: one register write, of the sum as a number. -/
theorem addByteWrapsWithoutCarry : Obligations.AddByteWrapsWithoutCarry := by
  unfold Obligations.AddByteWrapsWithoutCarry
  intro x nn s
  refine ⟨decode_of_eq_encode (wordXNN_eq 0x7 x nn) rfl, _, rfl, ?_, frame_writeV s _ rfl⟩
  rw [State.readV_writeV_same, addResult_toNat]

/-- Settles O20: each is one register write, and the operations on bit vectors act bit by bit. -/
theorem logicBitByBit : Obligations.LogicBitByBit := by
  unfold Obligations.LogicBitByBit
  intro x y s
  refine ⟨decode_of_eq_encode (wordXYN_eq 0x8 x y 0x1) rfl, ⟨_, rfl, frame_writeV s _ rfl, fun k _ => ?or⟩,
    decode_of_eq_encode (wordXYN_eq 0x8 x y 0x2) rfl, ⟨_, rfl, frame_writeV s _ rfl, fun k _ => ?and⟩,
    decode_of_eq_encode (wordXYN_eq 0x8 x y 0x3) rfl, ⟨_, rfl, frame_writeV s _ rfl, fun k _ => ?xor⟩⟩
  case or => rw [State.readV_writeV_same, BitVec.getLsbD_or]
  case and => rw [State.readV_writeV_same, BitVec.getLsbD_and]
  case xor => rw [State.readV_writeV_same, BitVec.getLsbD_xor]

/-- Settles O21: the carry is the comparison of the exact sum. -/
theorem addRegistersWithCarry : Obligations.AddRegistersWithCarry := by
  unfold Obligations.AddRegistersWithCarry
  intro x y s
  exact ⟨decode_of_eq_encode (wordXYN_eq 0x8 x y 0x4) rfl,
    resultThenFlag_of_exec rfl (addResult_toNat _ _) (addCarry_iff _ _)⟩

/-- Settles O22: the two differ in which register is the minuend. -/
theorem subtractBothDirections : Obligations.SubtractBothDirections := by
  unfold Obligations.SubtractBothDirections
  intro x y s
  exact ⟨decode_of_eq_encode (wordXYN_eq 0x8 x y 0x5) rfl,
    resultThenFlag_of_exec rfl (subResult_toNat _ _) (subNoBorrow_iff _ _),
    decode_of_eq_encode (wordXYN_eq 0x8 x y 0x7) rfl,
    resultThenFlag_of_exec rfl (subResult_toNat _ _) (subNoBorrow_iff _ _)⟩

/-- Settles O23: the value that the toggle chooses is the one the model shifts. -/
theorem shiftByOneBit : Obligations.ShiftByOneBit := by
  unfold Obligations.ShiftByOneBit
  intro x y s v hv
  obtain rfl : v = (s.shiftSource x y).toNat := hv.trans (shiftSource_toNat s x y).symm
  exact ⟨decode_of_eq_encode (wordXYN_eq 0x8 x y 0x6) rfl,
    resultThenFlag_of_exec rfl (shrResult_toNat _) (shrOut_iff _),
    decode_of_eq_encode (wordXYN_eq 0x8 x y 0xE) rfl,
    resultThenFlag_of_exec rfl (shlResult_toNat _) (shlOut_iff _)⟩

/-- Settles O24: the write follows the draw, and a bit of the masked byte is a bit of the mask. -/
theorem randomByteIsMasked : Obligations.RandomByteIsMasked := by
  unfold Obligations.RandomByteIsMasked
  intro x nn s
  have hread : (s.nextDraw.writeV x (s.drawnByte &&& nn)).readV x = rndByte s.draws &&& nn :=
    s.nextDraw.readV_writeV_same x _
  refine ⟨decode_of_eq_encode (wordXNN_eq 0xC x nn) rfl, _, rfl, hread, rfl, fun k _ hbit => ?_,
    frame_trans not_false (frame_nextDraw s trivial) (frame_writeV _ _ rfl)⟩
  rw [hread, BitVec.getLsbD_and, Bool.and_eq_true] at hbit
  exact hbit.2

end Sys2Proof.Machine
end

section
/-! PROOFS. The index register and block transfers: the `I` each instruction leaves, the bytes and registers it
moves, and its frame (spec 43_index_memory.md R105 to R111). -/

namespace Sys2Proof.Machine

open Sys2Proof.Config Sys2Proof.Spec

/-! ### Addresses and digits as numbers -/

theorem lowNibble_val (b : Byte) : (lowNibble b).val = b.toNat % 16 :=
  BitVec.extractLsb'_toNat 0 4 b

theorem glyphAddr_toNat (c : Cfg) (b : Byte) :
    (glyphAddr c (lowNibble b)).toNat = (c.fontOffset + 5 * (b.toNat % 16)) % 65536 := by
  rw [glyphAddr, BitVec.toNat_ofNat, lowNibble_val]

theorem indexSum_toNat (i : Word) (b : Byte) : (i + zext8 b).toNat = (i.toNat + b.toNat) % 65536 := by
  rw [BitVec.toNat_add, zext8_toNat]

theorem indexOverflow_iff (memSize : Nat) (i : Word) (b : Byte) :
    indexOverflow memSize i b = true ↔ memSize ≤ i.toNat + b.toNat :=
  decide_eq_true_iff

/-- The font fits, so RAM has room for the longest run that an instruction stores. -/
theorem sixteen_le_memSize {c : Cfg} (h : CfgValid c) : 16 ≤ c.memSize := by
  obtain ⟨-, -, -, -, hfont, -⟩ := h
  exact (Nat.le_add_left 16 (c.fontOffset + 64)).trans hfont

/-! ### What the shared operations leave -/

/-- With its toggle on, the overflow report leaves the flag in `VF`. -/
theorem readVF_reportOverflow_of_on (s : State) (b : Bool) (h : s.cfg.addiOverflowVF = true) :
    (s.reportOverflow b).readV 15 = flagByte b := by
  rw [State.reportOverflow, if_pos h, State.readV_writeVF, if_pos rfl]

theorem reportOverflow_i (s : State) (b : Bool) : (s.reportOverflow b).i = s.i := by
  rw [State.reportOverflow_eq]

/-- `I` after a block transfer that itself left `I` and the configuration as they were. -/
theorem advanceI_i_toNat {s t : State} (n : Nat) (hi : t.i = s.i) (hcfg : t.cfg = s.cfg) :
    (t.advanceI n).i.toNat = if s.cfg.memIncrementsI then (s.i.toNat + n) % 65536 else s.i.toNat := by
  rw [State.advanceI_eq, hi, hcfg]
  split
  · rw [BitVec.toNat_add, BitVec.toNat_ofNat, Nat.add_mod_mod]
  · rfl

/-- A frame still holds when `I` may change too. -/
theorem frame_allow_index {w : Touched} {s t : State} (h : Frame w s t) : Frame { w with index := True } s t := by
  obtain ⟨hreg, -, hrest⟩ := h
  exact ⟨hreg, fun hindex => absurd trivial hindex, hrest⟩

/-! ### The obligations -/

/-- Settles O25: the word of `LD I`, and the address as a number. -/
theorem loadIndex : Obligations.LoadIndex := by
  unfold Obligations.LoadIndex
  intro nnn s
  exact ⟨decode_of_eq_encode (wordNNN_eq 0xA nnn) rfl, _, rfl, zext12_toNat nnn, frame_setI s _ trivial⟩

/-- Settles O26: the report writes `VF` alone, so `I` keeps the sum. -/
theorem addToIndex : Obligations.AddToIndex := by
  unfold Obligations.AddToIndex
  intro x s
  refine ⟨decode_of_eq_encode (wordXNN_eq 0xF x 0x1E) rfl, _, rfl, ?index, fun hon => ?flag,
    exec_frame (.addI x) s _ rfl⟩
  case index => rw [reportOverflow_i, State.setI_i, indexSum_toNat]
  case flag =>
    rw [readVF_reportOverflow_of_on (s.setI (s.i + zext8 (s.readV x))) _ hon, flagByte_toNat]
    simp only [indexOverflow_iff]

/-- Settles O27: the word of `LD F`, and the glyph's address as a number. -/
theorem pointIndexAtGlyph : Obligations.PointIndexAtGlyph := by
  unfold Obligations.PointIndexAtGlyph
  intro x s
  exact ⟨decode_of_eq_encode (wordXNN_eq 0xF x 0x29) rfl, _, rfl, glyphAddr_toNat s.cfg _, frame_setI s _ trivial⟩

/-- Settles O28: the three cells are distinct, so each reads as the digit written to it, and no digit is narrowed. -/
theorem decimalDigitsToMemory : Obligations.DecimalDigitsToMemory := by
  unfold Obligations.DecimalDigitsToMemory
  intro x s hcfg
  have hroom : 3 ≤ s.cfg.memSize := Nat.le_trans (by decide) (sixteen_le_memSize hcfg)
  have hdigit := fun (k : Nat) (hk : k < 3) =>
    congrArg BitVec.toNat (s.memRead_memWriteAll (s.elementAddr 0) k (bcdDigits (s.readV x)) hk hroom)
  refine ⟨decode_of_eq_encode (wordXNN_eq 0xF x 0x33) rfl, _, rfl, (hdigit 0 (by decide)).trans ?hundreds,
    (hdigit 1 (by decide)).trans ?tens, (hdigit 2 (by decide)).trans ?units, exec_ldB_frame x s _ rfl⟩
  case hundreds | tens | units => exact (BitVec.toNat_ofNat _ 8).trans (Nat.mod_eq_of_lt (by omega))

/-- Settles O29: what a block store leaves in RAM, and the advance of `I` after it. -/
theorem storeRegistersToMemory : Obligations.StoreRegistersToMemory := by
  unfold Obligations.StoreRegistersToMemory
  intro x s hcfg
  have hroom : x.val + 1 ≤ s.cfg.memSize := Nat.le_trans x.isLt (sixteen_le_memSize hcfg)
  refine ⟨decode_of_eq_encode (wordXNN_eq 0xF x 0x55) rfl, _, rfl,
    fun r hr => exec_storeBlock_memRead rfl hroom hr, ?index, frame_allow_index (exec_storeBlock_frame x s _ rfl)⟩
  case index => exact advanceI_i_toNat (x.val + 1) (by rw [State.memWriteAll_frame]) (s.memWriteAll_cfg _ _)

/-- Settles O30: what a block load leaves in the registers, and the advance of `I` after it. -/
theorem loadRegistersFromMemory : Obligations.LoadRegistersFromMemory := by
  unfold Obligations.LoadRegistersFromMemory
  intro x s
  refine ⟨decode_of_eq_encode (wordXNN_eq 0xF x 0x65) rfl, _, rfl, fun r hr => ?register, ?index,
    frame_allow_index (exec_loadBlock_frame x s _ rfl)⟩
  case register =>
    rw [State.readV_advanceI, s.readV_loadRegs _ _ x.isLt, if_pos (Nat.lt_succ_of_le hr)]
    rfl
  case index => exact advanceI_i_toNat (x.val + 1) (by rw [State.loadRegs_frame]) (by rw [State.loadRegs_frame])

end Sys2Proof.Machine
end

section
/-! PROOFS. Clearing and drawing: a draw as a run of toggles at the sprite's pixels, and a second draw at the same
place (spec 44_display.md R115, R116). -/

namespace Sys2Proof.Machine

open Sys2Proof.Spec

/-! ### The word of a draw -/

theorem decode_wordXYN_drw (x y : Reg) {n : Nat} (hn : n < 16) : decode (wordXYN 0xD x y n) = .ok (.drw x y n) := by
  have hnibble : (BitVec.ofNat 4 n).toNat = n := (BitVec.toNat_ofNat n 4).trans (Nat.mod_eq_of_lt hn)
  have hword := wordXYN_eq 0xD x y (BitVec.ofNat 4 n)
  rw [hnibble] at hword
  exact decode_of_eq_encode hword (decide_eq_true hn)

/-! ### What a draw answers -/

/-- The position and the sprite are read as they were before `VF` is cleared. -/
theorem exec_drw (x y : Reg) (n : Nat) (s : State) :
    exec (.drw x y n) s = .next ((s.writeVF 0).toggleAll (spriteHits s x y n)) := by
  rw [← toggled_eq_spriteHits s (s.writeVF 0) x y n rfl rfl rfl, ← State.drawRows_eq_toggleAll]
  rfl

/-- A valid configuration has a display, so wrapping puts every named pixel on it. -/
theorem spriteHits_in_range_of_cfgValid {s : State} (h : CfgValid s.cfg) (x y : Reg) (n : Nat) :
    ∀ p ∈ spriteHits s x y n, p.1 < s.cfg.displayWidth ∧ p.2 < s.cfg.displayHeight := by
  obtain ⟨-, -, -, -, -, -, hwidth, hheight, -⟩ := h
  exact spriteHits_in_range s x y n hwidth hheight

/-- With `X` and `Y` other than 15, a draw leaves all that its own sprite is read from. -/
theorem spriteHits_of_exec_drw {x y : Reg} {n : Nat} {s t : State} (hx : x ≠ 15) (hy : y ≠ 15)
    (h : exec (.drw x y n) s = .next t) : spriteHits t x y n = spriteHits s x y n := by
  obtain ⟨hreg, hindex, -, -, hcell, -, -, -, -, -, hcfg, -⟩ := exec_frame (.drw x y n) s t h
  have hmem : ∀ a, t.memRead a = s.memRead a := fun a => hcell a not_false
  simp only [spriteHits, hreg x hx, hreg y hy, hindex not_false, hcfg not_false, hmem]

/-! ### The obligations -/

/-- Settles O34: the word of `CLS`, and `clearDisplay` in every state. -/
theorem clearDisplay : Obligations.ClearDisplay := by
  unfold Obligations.ClearDisplay
  exact ⟨decode_encode .cls rfl, fun s =>
    ⟨_, rfl, s.pixRead_clearDisplay, s.clearDisplay_dirty, frame_clearDisplay s trivial trivial⟩⟩

/-- Settles O35: a draw is `VF` cleared and a run of toggles at the sprite's pixels, all in range. -/
theorem drawTogglesTheSpritePixels : Obligations.DrawTogglesTheSpritePixels := by
  unfold Obligations.DrawTogglesTheSpritePixels
  intro x y n s hcfg hits
  have hrange : ∀ p ∈ hits, p.1 < (s.writeVF 0).cfg.displayWidth := fun p hp =>
    (spriteHits_in_range_of_cfgValid hcfg x y n p hp).1
  obtain ⟨hcollide, hclear⟩ := (s.writeVF 0).readVF_toggleAll hits hrange
  refine ⟨decode_wordXYN_drw x y, _, exec_drw x y n s,
    fun px py hpx _ => (s.writeVF 0).pixRead_toggleAll hits px py hrange hpx, hcollide, fun hnone => ?_,
    (s.writeVF 0).dirty_toggleAll hits, exec_frame (.drw x y n) s _ (exec_drw x y n s)⟩
  rw [hclear hnone, State.readV_writeVF, if_pos rfl]

/-- Settles O36: both draws toggle the same pixels, so the toggles cancel, and what the first lights the second
collides with. -/
theorem drawingTwiceRestoresTheDisplay : Obligations.DrawingTwiceRestoresTheDisplay := by
  unfold Obligations.DrawingTwiceRestoresTheDisplay
  intro x y n s t u hcfg hx hy hst htu
  have hhits := spriteHits_of_exec_drw hx hy hst
  obtain ⟨hsame, -⟩ := (exec_effect _ s t hst).keeps_host_state
  obtain ⟨-, _, hfirst, hpix₁, -, hclear₁, -⟩ := drawTogglesTheSpritePixels x y n s hcfg
  cases hfirst.symm.trans hst
  obtain ⟨-, _, hsecond, hpix₂, hcollide₂, -⟩ := drawTogglesTheSpritePixels x y n t (hsame ▸ hcfg)
  cases hsecond.symm.trans htu
  rw [hhits] at hpix₂ hcollide₂
  rw [hsame] at hpix₂
  refine ⟨fun px py hpx hpy => ?restored, fun hne hnodup hblank => ⟨hclear₁ ?clear, hcollide₂ ?collide⟩⟩
  case restored => rw [hpix₂ px py hpx hpy, hpix₁ px py hpx hpy, Bool.xor_assoc, Bool.xor_self, Bool.xor_false]
  case clear =>
    rintro ⟨p, hp, hset | hrepeat⟩
    · exact Bool.false_ne_true ((hblank p hp).symm.trans hset)
    · exact hrepeat.not_ge (List.nodup_iff_count_le_one.mp hnodup p)
  case collide =>
    obtain ⟨p, hp⟩ := List.exists_mem_of_ne_nil _ hne
    obtain ⟨hpx, hpy⟩ := spriteHits_in_range_of_cfgValid hcfg x y n p hp
    refine ⟨p, hp, .inl ?_⟩
    rw [hpix₁ p.1 p.2 hpx hpy, hblank p hp, List.count_eq_one_of_mem hnodup hp]
    rfl

end Sys2Proof.Machine
end

section
/-! PROOFS. Key skips, the key wait and the timer transfers: the word of each, what it answers, and a waiting `Step`
as the identity (spec 45_keys_timers.md R122 to R127). -/

namespace Sys2Proof.Machine

open Sys2Proof.Spec

/-! ### Keys and the skip on an absent key -/

theorem eq_lowNibble_of_val {k : Key} {b : Byte} (h : k.val = b.toNat % 16) : k = lowNibble b :=
  Fin.ext (h.trans (lowNibble_val b).symm)

/-- A key's number fits the register that receives it. -/
theorem keyByte_toNat (k : Key) : (BitVec.ofNat 8 k.val).toNat = k.val :=
  (BitVec.toNat_ofNat k.val 8).trans (Nat.mod_eq_of_lt (by omega))

theorem skipIf_not_pc_toNat (s : State) (b : Bool) :
    (s.skipIf (!b)).pc.toNat = if b then s.pc.toNat else (s.pc.toNat + 2) % 65536 := by
  rw [skipIf_pc_toNat]
  cases b <;> rfl

/-! ### What a key wait answers -/

theorem decode_wordXNN_ldVxK (x : Reg) : decode (wordXNN 0xF x 0x0A) = .ok (.ldVxK x) :=
  decode_of_eq_encode (wordXNN_eq 0xF x 0x0A) rfl

section

variable {s : State}

theorem exec_ldVxK_of_least (x : Reg) {k : Key} (hpressed : s.readKey k = true)
    (hleast : ∀ j < k, s.readKey j = false) : exec (.ldVxK x) s = .next (s.writeV x (BitVec.ofNat 8 k.val)) := by
  have hfirst := (s.firstKey_eq_some k).mpr ⟨hpressed, hleast⟩
  simp only [exec, execLdVxK, hfirst]

theorem exec_ldVxK_of_no_key (x : Reg) (h : ∀ k, s.readKey k = false) :
    exec (.ldVxK x) s = .next s.rewindPC := by
  have hfirst := s.firstKey_eq_none.mpr h
  simp only [exec, execLdVxK, hfirst]

end

theorem rewindPC_pc_toNat (s : State) : s.rewindPC.pc.toNat = (s.pc.toNat + 65534) % 65536 := by
  rw [State.rewindPC_pc, BitVec.toNat_sub, Nat.add_comm]
  rfl

/-- The rewind takes back the advance of the fetch, at the ends of the address space too. -/
theorem rewindPC_advancePC (s : State) : s.advancePC.rewindPC = s :=
  congrArg s.setPC (BitVec.add_sub_cancel s.pc 2)

/-! ### The obligations -/

/-- Settles O37: the key is the low nibble that the model names, and both skips are `skipIf` of its test. -/
theorem skipOnKey : Obligations.SkipOnKey := by
  unfold Obligations.SkipOnKey
  intro x s k hk
  obtain rfl := eq_lowNibble_of_val hk
  exact ⟨decode_of_eq_encode (wordXNN_eq 0xE x 0x9E) rfl,
    ⟨_, rfl, skipIf_pc_toNat s _, frame_skipIf s _ trivial⟩,
    decode_of_eq_encode (wordXNN_eq 0xE x 0xA1) rfl,
    ⟨_, rfl, skipIf_not_pc_toNat s _, frame_skipIf s _ trivial⟩⟩

/-- Settles O38, by whether a key is pressed. -/
theorem keyWaitTakesTheLeastKey : Obligations.KeyWaitTakesTheLeastKey := by
  unfold Obligations.KeyWaitTakesTheLeastKey
  intro x s
  refine ⟨decode_wordXNN_ldVxK x, fun k hpressed hleast => ?_, fun hnone => ?_⟩
  · refine ⟨_, exec_ldVxK_of_least x hpressed hleast, ?_, frame_writeV s _ rfl⟩
    rw [State.readV_writeV_same, keyByte_toNat]
  · exact ⟨_, exec_ldVxK_of_no_key x hnone, rewindPC_pc_toNat s, frame_setPC s _ trivial⟩

/-- Settles O39: the advance of the fetch leaves the keys alone, so the wait rewinds it. -/
theorem waitingStepChangesNothing : Obligations.WaitingStepChangesNothing := by
  unfold Obligations.WaitingStepChangesNothing
  intro x s hready hword hnone
  have hinstr : s.fetchInstr = .ok (.ldVxK x) := (congrArg decode hword).trans (decode_wordXNN_ldVxK x)
  calc step s = exec (.ldVxK x) s.advancePC := step_of_decoded s _ hready hinstr
    _ = .next s.advancePC.rewindPC := exec_ldVxK_of_no_key x hnone
    _ = .next s := by rw [rewindPC_advancePC]

/-- Settles O40: each is one write, of `VX`, `DT` or `ST`. -/
theorem timerTransfers : Obligations.TimerTransfers := by
  unfold Obligations.TimerTransfers
  intro x s
  exact ⟨decode_of_eq_encode (wordXNN_eq 0xF x 0x07) rfl,
    ⟨_, rfl, s.readV_writeV_same x _, frame_writeV s _ rfl⟩,
    decode_of_eq_encode (wordXNN_eq 0xF x 0x15) rfl,
    ⟨_, rfl, rfl, frame_setDT s _ trivial⟩,
    decode_of_eq_encode (wordXNN_eq 0xF x 0x18) rfl,
    ⟨_, rfl, rfl, frame_setST s _ trivial⟩⟩

end Sys2Proof.Machine
end

section
/-! PROOFS. The faults of a step are precise, only a `Load` leaves one, and the timer tick (spec 60_exceptions.md
R132 to R134, R137, R138, R142). -/

namespace Sys2Proof.Machine

open Sys2Proof.Config Sys2Proof.Spec

/-! ### What a step that faults leaves -/

/-- The address that a fault records is the one the word was fetched from. -/
theorem instrAddr_advancePC (s : State) : s.advancePC.instrAddr = s.pc :=
  BitVec.add_sub_cancel s.pc 2

/-- A step that only advances `PC` and raises `f` is a precise fault. -/
theorem precise_of_step_enterFault {s : State} {f : Fault} (h : step s = .next (s.advancePC.enterFault f)) :
    ∃ t, step s = .next t ∧ t.engine = .faulted ∧ t.fault = some f ∧
      t.pc.toNat = (s.pc.toNat + 2) % 65536 ∧ Frame { pc := True, engine := True } s t :=
  ⟨_, h, rfl, rfl, BitVec.toNat_add s.pc 2,
    frame_trans not_false (frame_setPC s _ trivial) (frame_enterFault _ f trivial)⟩

theorem step_of_illegalWord {s : State} (hready : s.engine = .ready) (hw : IllegalWord s.fetchWord) :
    step s = .next (s.advancePC.enterFault (.unsupportedOpcode s.fetchWord s.pc)) :=
  (stepRunsTheFetchedInstruction s hready).2 _ ((rejectedWordsAreTheIllegalOnes s.fetchWord).1 hw)

theorem step_of_call_full {s : State} {nnn : Addr12} (hready : s.engine = .ready)
    (hw : s.fetchWord = wordNNN 0x2 nnn) (hfull : s.cfg.stackDepth ≤ s.stack.length) :
    step s = .next (s.advancePC.enterFault (.stackOverflow s.pc (wordNNN 0x2 nnn))) := by
  have hcode : wordNNN 0x2 nnn = encode (.call nnn) := wordNNN_eq 0x2 nnn
  have hinstr : s.fetchInstr = .ok (.call nnn) := decode_of_eq_encode (hw.trans hcode) rfl
  rw [step_of_decoded s _ hready hinstr, exec_call_of_full (s := s.advancePC) nnn hfull, instrAddr_advancePC, hcode]

theorem step_of_ret_empty {s : State} (hready : s.engine = .ready) (hw : s.fetchWord = 0x00EE)
    (hempty : s.stack = []) : step s = .next (s.advancePC.enterFault (.stackUnderflow s.pc 0x00EE)) := by
  have hinstr : s.fetchInstr = .ok .ret := decode_of_eq_encode hw rfl
  rw [step_of_decoded s _ hready hinstr, exec_ret_of_empty (s := s.advancePC) hempty, instrAddr_advancePC]
  rfl

/-- Settles O7: the step advances `PC` and raises the fault of the rejected word. -/
theorem illegalWordFaultsPrecisely : Obligations.IllegalWordFaultsPrecisely := by
  unfold Obligations.IllegalWordFaultsPrecisely
  exact fun s hready hw => precise_of_step_enterFault (step_of_illegalWord hready hw)

/-- Settles O13: both steps advance `PC` and raise the fault of their instruction. -/
theorem stackFaultsRecordTheirInstruction : Obligations.StackFaultsRecordTheirInstruction := by
  unfold Obligations.StackFaultsRecordTheirInstruction
  intro nnn s hready
  constructor
  · exact fun hw hfull => precise_of_step_enterFault (step_of_call_full hready hw hfull.ge)
  · exact fun hw hempty => precise_of_step_enterFault (step_of_ret_empty hready hw hempty)

/-! ### No operation but `Load` leaves a fault -/

/-- All that `SetKey` can do. -/
theorem setKey_cases {k : Key} {b : Bool} {s t : State} (h : setKey k b s = .next t) : t = s.setKeySlot k b := by
  unfold setKey at h
  split at h
  · exact (Host.Outcome.next.inj h).symm
  · cases h

/-- Settles O59, operation by operation: only `Load` and `SetKey` act on a `Faulted` engine, and `SetKey` writes a
key. -/
theorem faultIsLeftOnlyByLoad : Obligations.FaultIsLeftOnlyByLoad := by
  unfold Obligations.FaultIsLeftOnlyByLoad
  intro op s t hfaulted h
  have hnotReady : s.engine ≠ .ready := by rw [hfaulted]; decide
  cases op with
  | load c program => exact .inl ⟨c, program, rfl⟩
  | update millis writes =>
    obtain ⟨r, hr⟩ := update_of_not_ready millis writes hnotReady
    cases hr.symm.trans h
  | step =>
    obtain ⟨r, hr⟩ := step_of_not_ready hnotReady
    cases hr.symm.trans h
  | setKey k b =>
    obtain rfl := setKey_cases h
    exact .inr ⟨hfaulted, rfl⟩
  | setTargetFreq f => cases (setTargetFreq_of_not_ready f hnotReady).symm.trans h

/-! ### The timer tick -/

/-- Settles O41: each timer by its own tick. -/
theorem timersTickDownToZero : Obligations.TimersTickDownToZero := by
  unfold Obligations.TimersTickDownToZero
  exact fun s => ⟨tick_toNat s.dt, tick_toNat s.st, frame_timerTick s⟩

end Sys2Proof.Machine
end

section
/-! PROOFS. Which fault a `Load` reports, and the invariant that a successful one establishes (spec
70_reset_and_hazards.md R152, R153). -/

namespace Sys2Proof.Machine

open Sys2Proof.Config Sys2Proof.Spec

/-! ### The checks as a list of lines -/

/-- The checks of R153 in their order, the fifth as its two lines: whether the line fails, and its fault. -/
def checkLines (c : RawCfg) (len : Nat) : List (Bool × Fault) :=
  [(decide ¬ (1 ≤ c.memSize ∧ c.memSize ≤ 65536), .invalidConfiguration .memSize),
   (decide ¬ (0 ≤ c.programOffset ∧ c.programOffset < c.memSize), .invalidConfiguration .programOffset),
   (decide ¬ (0 ≤ c.fontOffset ∧ c.fontOffset < c.memSize), .invalidConfiguration .fontOffset),
   (decide ¬ 1 ≤ c.stackDepth, .invalidConfiguration .stackDepth),
   (decide ¬ 1 ≤ c.displayWidth, .invalidConfiguration .displayWidth),
   (decide ¬ 1 ≤ c.displayHeight, .invalidConfiguration .displayHeight),
   (decide ¬ isNonNegative c.targetFreqInit, .invalidConfiguration .targetFreqInit),
   (c.fontVariant.isNone, .invalidConfiguration .fontVariant),
   (regionsOverlap c len, .invalidConfiguration .fontOffset),
   (decide (c.memSize < c.fontOffset + fontLength), .outOfMemory .font c.fontOffset fontLength c.memSize),
   (decide (c.memSize < c.programOffset + len), .outOfMemory .program c.programOffset len c.memSize)]

/-- The first `j` lines pass. -/
def LinesPass (j : Nat) (c : RawCfg) (len : Nat) : Prop :=
  ∀ line ∈ (checkLines c len).take j, line.1 = false

/-- The fault of the first line that fails is that of the line at the head, or comes from the lines after it. -/
theorem find?_line (b : Bool) (f : Fault) (lines : List (Bool × Fault)) :
    (((b, f) :: lines).find? (·.1)).map (·.2) = if b then some f else (lines.find? (·.1)).map (·.2) := by
  cases b <;> rfl

/-- The model's checks report the fault of the first line that fails. -/
theorem loadFault_eq_find? (c : RawCfg) (len : Nat) :
    loadFault c len = ((checkLines c len).find? (·.1)).map (·.2) := by
  simp only [loadFault, checkLines, find?_line, decide_eq_true_eq, List.find?_nil, Option.map_none]

/-- A line that fails when those before it pass is the first that fails. -/
theorem find?_of_take {lines : List (Bool × Fault)} {j : Nat} (hj : j < lines.length)
    (hbefore : ∀ line ∈ lines.take j, line.1 = false) (hfails : ¬ ∀ line ∈ lines.take (j + 1), line.1 = false) :
    lines.find? (·.1) = some lines[j] := by
  have hline : lines[j].1 = true := by
    by_contra hpasses
    rw [List.take_succ_eq_append_getElem hj, List.forall_mem_append, List.forall_mem_singleton] at hfails
    exact hfails ⟨hbefore, Bool.eq_false_of_not_eq_true hpasses⟩
  have hsplit : lines = lines.take j ++ lines[j] :: lines.drop (j + 1) := by
    rw [List.getElem_cons_drop hj, List.take_append_drop]
  rw [List.find?_eq_some_iff_append]
  exact ⟨hline, _, _, hsplit, fun line hmem => by rw [hbefore line hmem, Bool.not_false]⟩

section
variable {c : RawCfg} {program : List Byte} (s : State) {k j : Nat} {f : Fault}

/-- When the first `j` lines pass and the one after them does not, `Load` raises the fault of that line. -/
theorem loadRaises_of_linesPass (hline : (checkLines c program.length)[j]?.map (·.2) = some f)
    (hbefore : LinesPass j c program.length) (hfails : ¬ LinesPass (j + 1) c program.length) :
    LoadRaises c program s f := by
  obtain ⟨line, hget, rfl⟩ := Option.map_eq_some_iff.mp hline
  obtain ⟨hj, rfl⟩ := List.getElem?_eq_some_iff.mp hget
  have hfault : loadFault c program.length = some (checkLines c program.length)[j].2 := by
    rw [loadFault_eq_find?, find?_of_take hj hbefore hfails, Option.map_some]
  rw [LoadRaises, load_of_fault c program s _ hfault]
  exact ⟨rfl, rfl⟩

/-! ### The ten checks and the lines -/

/-- Up to the fourth check, each check is one line. -/
theorem checksHold_iff_linesPass (hk : k ≤ 4) (c : RawCfg) (len : Nat) : ChecksHold k c len ↔ LinesPass k c len := by
  interval_cases k <;> simp [ChecksHold, LinesPass, checkLines]

/-- From the fifth check on, there is one line more than there are checks. -/
theorem checksHold_iff_linesPass_succ (h5 : 5 ≤ k) (hk : k ≤ 10) (c : RawCfg) (len : Nat) :
    ChecksHold k c len ↔ LinesPass (k + 1) c len := by
  have hfont : (80 : Int) = fontLength := rfl
  interval_cases k <;>
    simp [ChecksHold, LinesPass, checkLines, regionsOverlap, isNonNegative_iff, Option.isSome_iff_ne_none, and_assoc,
      hfont]

/-- The fifth line is the first half of the fifth check. -/
theorem linesPass_five_iff (c : RawCfg) (len : Nat) :
    LinesPass 5 c len ↔ ChecksHold 4 c len ∧ 1 ≤ c.displayWidth := by
  simp [ChecksHold, LinesPass, checkLines, and_assoc]

/-- The sixth line is the second half of the fifth check. -/
theorem linesPass_six_iff (c : RawCfg) (len : Nat) :
    LinesPass 6 c len ↔ LinesPass 5 c len ∧ 1 ≤ c.displayHeight := by
  simp [LinesPass, checkLines, and_assoc]

/-- One of the first four checks fails first. -/
theorem loadRaises_of_check_le_four (hk : k < 4) (hline : (checkLines c program.length)[k]?.map (·.2) = some f)
    (hbefore : ChecksHold k c program.length) (hfails : ¬ ChecksHold (k + 1) c program.length) :
    LoadRaises c program s f := by
  rw [checksHold_iff_linesPass hk.le] at hbefore
  rw [checksHold_iff_linesPass hk] at hfails
  exact loadRaises_of_linesPass s hline hbefore hfails

/-- One of the checks after the fifth fails first. -/
theorem loadRaises_of_five_lt_check (h5 : 5 ≤ k) (hk : k < 10)
    (hline : (checkLines c program.length)[k + 1]?.map (·.2) = some f)
    (hbefore : ChecksHold k c program.length) (hfails : ¬ ChecksHold (k + 1) c program.length) :
    LoadRaises c program s f := by
  rw [checksHold_iff_linesPass_succ h5 hk.le] at hbefore
  rw [checksHold_iff_linesPass_succ (Nat.le_succ_of_le h5) hk] at hfails
  exact loadRaises_of_linesPass s hline hbefore hfails

end

theorem checksHold_zero (c : RawCfg) (len : Nat) : ChecksHold 0 c len := by
  simp [ChecksHold]

/-- Settles O47: each check is a line, the fifth is two, and `Load` raises the fault of the first line that fails. -/
theorem loadReportsTheFirstFailedCheck : Obligations.LoadReportsTheFirstFailedCheck := by
  unfold Obligations.LoadReportsTheFirstFailedCheck
  intro c p s n
  refine ⟨?memSize, ?programOffset, ?fontOffset, ?stackDepth, ?displayWidth, ?displayHeight, ?targetFreqInit,
    ?fontVariant, ?overlap, ?fontFits, ?programFits⟩
  case memSize => exact loadRaises_of_check_le_four s (k := 0) (by decide) rfl (checksHold_zero c n)
  case programOffset => exact loadRaises_of_check_le_four s (k := 1) (by decide) rfl
  case fontOffset => exact loadRaises_of_check_le_four s (k := 2) (by decide) rfl
  case stackDepth => exact loadRaises_of_check_le_four s (k := 3) (by decide) rfl
  case displayWidth =>
    intro hbefore hwidth
    have hfour : LinesPass 4 c n := (checksHold_iff_linesPass le_rfl c n).mp hbefore
    exact loadRaises_of_linesPass s rfl hfour fun h => hwidth ((linesPass_five_iff c n).mp h).2
  case displayHeight =>
    intro hbefore hwidth hheight
    have hfive : LinesPass 5 c n := (linesPass_five_iff c n).mpr ⟨hbefore, hwidth⟩
    exact loadRaises_of_linesPass s rfl hfive fun h => hheight ((linesPass_six_iff c n).mp h).2
  case targetFreqInit => exact loadRaises_of_five_lt_check s (k := 5) (by decide) (by decide) rfl
  case fontVariant => exact loadRaises_of_five_lt_check s (k := 6) (by decide) (by decide) rfl
  case overlap => exact loadRaises_of_five_lt_check s (k := 7) (by decide) (by decide) rfl
  case fontFits => exact loadRaises_of_five_lt_check s (k := 8) (by decide) (by decide) rfl
  case programFits => exact loadRaises_of_five_lt_check s (k := 9) (by decide) (by decide) rfl

/-! ### The invariant after a `Load` -/

/-- Settles O51: a `Load` that passes the checks leaves the loaded state, with the program in a RAM that it fits. -/
theorem loadEstablishesTheInvariant : Obligations.LoadEstablishesTheInvariant := by
  unfold Obligations.LoadEstablishesTheInvariant
  exact fun c program s hchecks => load_inv s hchecks

end Sys2Proof.Machine
end
